-- ==== Sys2Proof/Word.lean ====
section
/-!
DEFINITION. The widths of the engine's values (spec 00_scope.md R9: `u8`, `u32`, `u64`, `u128`), and the four-word
tuple in which the spec writes an accumulator. Arithmetic on them wraps (R10, R153): `+` on `BitVec 32` is addition
modulo 2^32.
-/
namespace Sys2Proof

/-- `u8`. -/
abbrev Byte := BitVec 8

/-- `u32`, the engine's word (R6: "word width 32 bits, unsigned"). -/
abbrev Word := BitVec 32

/-- `u64`, the width of BITLEN and of the length field (R6). -/
abbrev Len64 := BitVec 64

/-- `u128`, the width of a formatted digest (R6). -/
abbrev Word128 := BitVec 128

/-- Four like things named a, b, c, d: the accumulator, the working registers, DIGEST_A..D. -/
structure Quad (α : Type) where
  a : α
  b : α
  c : α
  d : α
deriving DecidableEq, Repr

end Sys2Proof
end

