-- ==== Sys2Proof/Syntax.lean ====
section
/-!
DEFINITION. The engine's commands, one constructor per row of spec/opcode_table.json (30_encoding.md R82). A word that
decodes to no row is no instruction: its effect at the engine step is 43_commands.md R173 (`execIllegal`).
-/
namespace Sys2Proof

/-- A command. `finalize` carries TAILLEN "read as the natural number n" (R81). -/
inductive Instr where
  /-- NOP (R174). -/
  | nop
  /-- INIT (R175). -/
  | init
  /-- COMPRESS (R176). -/
  | compress
  /-- FINALIZE n (R177): `tailLen` is the byte count of the message tail. -/
  | finalize (tailLen : Nat)
deriving DecidableEq, Repr

end Sys2Proof
end

