-- ==== Sys2Proof/WellFormed.lean ====
section
/-!
DEFINITION. Which commands have an encoding: TAILLEN is a 6-bit field, "0..63; FINALIZE only" (30_encoding.md R80, R81;
41_preprocessor.md R126).
-/
namespace Sys2Proof

/-- The command has an encoding. The one check is on FINALIZE's tail length; the other commands have no operand. -/
abbrev Instr.WellFormed (i : Instr) : Prop :=
  match i with
  | .nop => True
  | .init => True
  | .compress => True
  | .finalize n => n ≤ 63

end Sys2Proof
end

