-- ==== Sys2Proof/Decode.lean ====
section
/-!
DEFINITION. The decoder of 30_encoding.md R80 to R84, total on all 2^32 words, and the encoder of R82. A word that is no
instruction is rejected under the name of its class in R84. What the engine does with such a word is R173, not here.
-/
namespace Sys2Proof

/-! ## Fields (R81) -/

/-- OP = w[3:0]. -/
def opField (w : Word) : BitVec 4 := w.extractLsb' 0 4

/-- RSV0 = w[7:4]. -/
def rsv0Field (w : Word) : BitVec 4 := w.extractLsb' 4 4

/-- TAILLEN = w[13:8]. -/
def tailLenField (w : Word) : BitVec 6 := w.extractLsb' 8 6

/-- RSV1 = w[31:14]. -/
def rsv1Field (w : Word) : BitVec 18 := w.extractLsb' 14 18

/-! ## Decode (R83) -/

/-- The three classes of word that decode to Illegal (R84). -/
inductive IllegalWord where
  /-- "nonzero reserved fields" -/
  | reservedField
  /-- "reserved opcodes (OP 0x4 to 0xF)" -/
  | reservedOpcode
  /-- "a nonzero TAILLEN with NOP, INIT or COMPRESS" -/
  | unexpectedTailLen
deriving DecidableEq, Repr

/-- `decode(w)` of R83, in the order of its tests; its last branch, Illegal, is told apart by R84's classes. -/
def decode (w : Word) : Except IllegalWord Instr :=
  if rsv0Field w ≠ 0 ∨ rsv1Field w ≠ 0 then .error .reservedField
  else if opField w = 0x0#4 ∧ tailLenField w = 0 then .ok .nop
  else if opField w = 0x1#4 ∧ tailLenField w = 0 then .ok .init
  else if opField w = 0x2#4 ∧ tailLenField w = 0 then .ok .compress
  else if opField w = 0x3#4 then .ok (.finalize (tailLenField w).toNat)
  else if opField w < 0x3#4 then .error .unexpectedTailLen
  else .error .reservedOpcode

/-- The instruction read from an opcode-table word of `nbits` bits. A command is one 32-bit word (R85), so the word the
decoder is given is the table's own, the bits above `nbits` zero. -/
def decodeTableWord (nbits w : Nat) : Option Instr :=
  (decode (BitVec.ofNat 32 (w % 2 ^ nbits))).toOption

/-! ## Encode (R80, R82) -/

/-- The word with the given OP and TAILLEN and zero reserved fields: RSV1 ++ TAILLEN ++ RSV0 ++ OP (R80). -/
def cmdWord (tailLen : BitVec 6) (op : BitVec 4) : Word :=
  (0#18 ++ tailLen ++ 0#4 ++ op : BitVec 32)

/-- The word of a command, from R82's table: NOP 0x00000000, INIT 0x00000001, COMPRESS 0x00000002, FINALIZE
`0x00000003 | (n << 8)`. -/
def encode (i : Instr) : Word :=
  match i with
  | .nop => cmdWord 0 0x0#4
  | .init => cmdWord 0 0x1#4
  | .compress => cmdWord 0 0x2#4
  | .finalize n => cmdWord (BitVec.ofNat 6 n) 0x3#4

end Sys2Proof
end

