-- ==== Sys2Proof/Machine/Codec.lean ====
section
/-!
DEFINITION. The word/byte codec (40_codec.md R100 to R106): pure functions "on fixed-size inputs", little-endian
throughout, with no error condition.
-/
namespace Sys2Proof.Machine

/-- `bytes_to_word_le` (R100): "byte 0 is least significant". -/
def bytesToWordLe (y0 y1 y2 y3 : Byte) : Word :=
  (y3.setWidth 32 <<< 24) ||| (y2.setWidth 32 <<< 16) ||| (y1.setWidth 32 <<< 8) ||| y0.setWidth 32

/-- `v[8k+7:8k]` (R54): byte `k` of a word. -/
def byteOf (v : Word) (k : Nat) : Byte := v.extractLsb' (8 * k) 8

/-- `word_to_bytes_le` (R101): `(v[7:0], v[15:8], v[23:16], v[31:24])`. -/
def wordToBytesLe (v : Word) : Byte × Byte × Byte × Byte :=
  (byteOf v 0, byteOf v 1, byteOf v 2, byteOf v 3)

/-- The four bytes of `word_to_bytes_le` as a byte sequence. -/
def wordByteList (v : Word) : List Byte :=
  match wordToBytesLe v with
  | (y0, y1, y2, y3) => [y0, y1, y2, y3]

/-- `length_to_bytes_le` (R102): the eight bytes of a u64, least significant first. -/
def lengthToBytesLe (l : Len64) : List Byte :=
  [l.extractLsb' 0 8, l.extractLsb' 8 8, l.extractLsb' 16 8, l.extractLsb' 24 8,
   l.extractLsb' 32 8, l.extractLsb' 40 8, l.extractLsb' 48 8, l.extractLsb' 56 8]

/-- A u64 from its two halves, `hi ++ lo` (R26: BITLEN = BITLEN_HI ++ BITLEN_LO). -/
def joinWords (hi lo : Word) : Len64 := hi ++ lo

/-- BITLEN[31:0] (R26). -/
def lowWord (l : Len64) : Word := l.extractLsb' 0 32

/-- BITLEN[63:32] (R26). -/
def highWord (l : Len64) : Word := l.extractLsb' 32 32

/-- `bswap32(v) = v[7:0] ++ v[15:8] ++ v[23:16] ++ v[31:24]` (R103), x ++ y with x in the high bits (R9). R103's corner case
calls 0x12344321 unchanged; its pseudocode, and 95_test_vectors.md T-codec-14, give 0x21433412. The pseudocode is followed:
DESIGN CHOICE, no ruling of 90_conflicts.md names the point (log entry 20). -/
def bswap32 (v : Word) : Word := byteOf v 0 ++ byteOf v 1 ++ byteOf v 2 ++ byteOf v 3

/-- `format_digest` (R105): each word byte-swapped, `a` most significant. -/
def formatDigest (w : Quad Word) : Word128 := bswap32 w.a ++ bswap32 w.b ++ bswap32 w.c ++ bswap32 w.d

/-- The canonical digest byte sequence (R106): the little-endian bytes of a, b, c, d, concatenated. -/
def digestBytes (w : Quad Word) : List Byte :=
  wordByteList w.a ++ wordByteList w.b ++ wordByteList w.c ++ wordByteList w.d

end Sys2Proof.Machine
end

