-- ==== Sys2Proof/Config.lean ====
section
/-!
DEFINITION. The parameters the spec leaves open (00_scope.md R8). The two that have no stated value are constants
without a body: nothing in Lean can evaluate them, so a statement about them holds for every value.
-/
namespace Sys2Proof

/-- CMD_LATENCY (R8, R246; "finite but has no stated bound"): how many host steps come between the `k`-th CMD write and
that command's completion, for a command whose latency the run's premises do not give. A free value (log entry 2). It takes
the count of commands and not the instance: that instances share it is DESIGN CHOICE (log entry 22). -/
opaque Config.cmdLatency : Nat → Nat

/-- MD5_BASE (R8, R50) of engine instance `k`: the address of its register window in the host's address space. A free value.
R8 names one base and R66 gives each instance its own window: one base per instance is DESIGN CHOICE (log entry 11). -/
opaque Config.md5Base : Nat → Nat

/-- N_ENGINES (R8): "The default is 1". The model of several engines takes the number as an argument
(Machine/Instances.lean). -/
def Config.nEnginesDefault : Nat := 1

end Sys2Proof
end

