-- ==== Sys2Proof/Machine/Constants.lean ====
section
/-!
DEFINITION. The engine's read-only constants (10_state.md R36): the initial accumulator IV (R24), the additive constants
K (42_compression.md R141), the rotation amounts S (R142), and the code of the one hardware error (60_exceptions.md
R221).
-/
namespace Sys2Proof.Machine

/-- IV (R24). -/
def iv : Quad Word := ⟨0x67452301#32, 0xEFCDAB89#32, 0x98BADCFE#32, 0x10325476#32⟩

/-- K[0..15] (R141). -/
def kRound1 : List Word :=
  [0xD76AA478#32, 0xE8C7B756#32, 0x242070DB#32, 0xC1BDCEEE#32, 0xF57C0FAF#32, 0x4787C62A#32, 0xA8304613#32, 0xFD469501#32,
   0x698098D8#32, 0x8B44F7AF#32, 0xFFFF5BB1#32, 0x895CD7BE#32, 0x6B901122#32, 0xFD987193#32, 0xA679438E#32, 0x49B40821#32]

/-- K[16..31] (R141). -/
def kRound2 : List Word :=
  [0xF61E2562#32, 0xC040B340#32, 0x265E5A51#32, 0xE9B6C7AA#32, 0xD62F105D#32, 0x02441453#32, 0xD8A1E681#32, 0xE7D3FBC8#32,
   0x21E1CDE6#32, 0xC33707D6#32, 0xF4D50D87#32, 0x455A14ED#32, 0xA9E3E905#32, 0xFCEFA3F8#32, 0x676F02D9#32, 0x8D2A4C8A#32]

/-- K[32..47] (R141). -/
def kRound3 : List Word :=
  [0xFFFA3942#32, 0x8771F681#32, 0x6D9D6122#32, 0xFDE5380C#32, 0xA4BEEA44#32, 0x4BDECFA9#32, 0xF6BB4B60#32, 0xBEBFBC70#32,
   0x289B7EC6#32, 0xEAA127FA#32, 0xD4EF3085#32, 0x04881D05#32, 0xD9D4D039#32, 0xE6DB99E5#32, 0x1FA27CF8#32, 0xC4AC5665#32]

/-- K[48..63] (R141). -/
def kRound4 : List Word :=
  [0xF4292244#32, 0x432AFF97#32, 0xAB9423A7#32, 0xFC93A039#32, 0x655B59C3#32, 0x8F0CCC92#32, 0xFFEFF47D#32, 0x85845DD1#32,
   0x6FA87E4F#32, 0xFE2CE6E0#32, 0xA3014314#32, 0x4E0811A1#32, 0xF7537E82#32, 0xBD3AF235#32, 0x2AD7D2BB#32, 0xEB86D391#32]

/-- The table K[0..63]. -/
def kTable : List Word := kRound1 ++ kRound2 ++ kRound3 ++ kRound4

theorem kTable_length : kTable.length = 64 := rfl

/-- K[i] (R141): "the engine uses the literal values and does not compute the formula". PRESUMED by the spec itself, from
general knowledge (G3; log entry 10). -/
def addConst (i : Fin 64) : Word := kTable[i.val]'(by rw [kTable_length]; exact i.isLt)

/-- The four amounts of a round, repeating "in the order of steps": S[i] = Sr[i mod 4] (R142). -/
def rotCycle (s0 s1 s2 s3 i : Nat) : Nat :=
  match i % 4 with
  | 0 => s0
  | 1 => s1
  | 2 => s2
  | _ => s3

/-- S[i] (R142). PRESUMED by the spec itself, from general knowledge (G4; log entry 10). -/
def rotAmount (i : Fin 64) : Nat :=
  if i.val < 16 then rotCycle 7 12 17 22 i.val
  else if i.val < 32 then rotCycle 5 9 14 20 i.val
  else if i.val < 48 then rotCycle 4 11 16 23 i.val
  else rotCycle 6 10 15 21 i.val

/-- ERRCODE 0x1, ILLEGAL_COMMAND: "the only code the engine produces" (R30, R221). -/
def codeIllegalCommand : BitVec 4 := 0x1#4

end Sys2Proof.Machine
end

