-- ==== Sys2Proof/Machine/State.lean ====
section
/-!
DEFINITION. The state of one engine and its host (10_state.md R20), the model faults (60_exceptions.md R224), the
refusals (00_scope.md R13), and the state at power-on (70_reset_and_hazards.md R240, R242).
-/
namespace Sys2Proof.Machine

/-! ## What stops a run -/

/-- The model faults, "one constructor of a closed type" each (R224). A fault is an outcome of the model and no signal of
the hardware (R223): it ends the run, so no claim is proved about what follows. All are safe, in the spec's own words:
"this errs toward unprovable" (R223). -/
inductive Fault where
  /-- Raised by a host access at an offset of 0x80 or more (R53). Safe. -/
  | unmappedAccess
  /-- Raised by a host access of a width other than 1 or 4 bytes at BUF, other than 4 elsewhere (R58). Safe. -/
  | unsupportedWidth
  /-- Raised by a 4-byte host access at an offset that is no multiple of 4 (R57). Safe. -/
  | misalignedAccess
  /-- Raised by a host read of CMD, or a host write of STATUS, DIGEST or DOUT (R55, R56). Safe. -/
  | accessDenied
  /-- Raised, while BUSY = 1, by any host access but a STATUS read (R245). Safe. -/
  | hostAccessWhileBusy
  /-- Raised by a host read of an unwritten BUF byte, or of DIGEST or DOUT while DV = 0; by COMPRESS with any BUF byte
  unwritten; by FINALIZE n with one of BUF[0..n-1] unwritten (R55, R176, R177). Safe. -/
  | unwrittenRead
  /-- Raised by `compress` on a buffer whose length is no multiple of 64 (R151); no command reaches it (R226). Safe. -/
  | blockLengthViolation
deriving DecidableEq, Repr

/-- The forms no rule gives a meaning to (R13). All are safe: the run stops. -/
inductive Refusal where
  /-- Answered by `exec` for an instruction of the table that has no meaning in this model yet. Safe. -/
  | notModelled (mnemonic : String)
  /-- Answered by the meaning of FINALIZE for a tail length above 63, which TAILLEN cannot encode (R126; 93 U16: "refuse"),
  so that no decoded word reaches it. Safe. -/
  | tailNotEncodable
  /-- Answered by a host write whose value is wider than the access: "a wider IMM is refused by the assembler" (R86; 93
  U17). Safe. -/
  | immediateTooWide
deriving DecidableEq, Repr

/-! ## The host's side -/

/-- A host-side name for a value read (R86). -/
abbrev HostName := List Char

/-- One operation of a host program (R86), with `off` the byte offset in the window and `width` in bytes. R55 and R56
define an access of every width, so every width is here; the syntax of R86 writes widths 1 and 4 only. -/
inductive HostOp where
  /-- `rd32 OFF -> NAME`, `rd8 OFF -> NAME`: HostRead(off, width). -/
  | read (off width : Nat) (name : HostName)
  /-- `wr32 OFF, IMM`, `wr8 OFF, IMM`: HostWrite(off, width, value). -/
  | write (off width value : Nat)
  /-- `rst`: assert reset (R240). -/
  | rst
  /-- `wait` (R88): "repeat rd32 STATUS -> s until s[0] = 0". -/
  | wait
  /-- The last line of `getdout -> NAME` (R88): `rd32 DOUT0 -> t0`, and with it "NAME = t3 ++ t2 ++ t1 ++ t0". -/
  | getdoutEnd (name : HostName)
deriving DecidableEq, Repr

/-- A value the host has read: under which name, at what width in bytes, and the value, zero-extended to a word. -/
structure Reading where
  name  : HostName
  width : Nat
  value : Word
deriving DecidableEq, Repr

/-- A 128-bit value the host has put together from four readings, under the NAME of its `getdout` (R88). -/
structure Joined where
  name  : HostName
  value : Word128
deriving DecidableEq, Repr

/-! ## The state -/

/-- Byte storage by offset: (offset, byte) pairs, offsets strictly rising. An offset that is not listed is unwritten and
reads as no value (10_state.md R25, "none = unwritten"). -/
abbrev Memory := List Host.Cell

/-- The state of one engine (R20) and of the host that drives it. The first ten fields are the spec's record, field for
field; the last six are the model's own (INVENTORY.md, State). -/
structure State where
  /-- ACC_A, ACC_B, ACC_C, ACC_D (R23). -/
  acc       : Quad Word
  /-- BUF[0..63]; an unlisted offset is unwritten (R25). -/
  buf       : Memory
  /-- BITLEN = BITLEN_HI ++ BITLEN_LO (R26). -/
  bitLen    : Len64
  /-- BUSY, STATUS[0] (R29). -/
  busy      : Bool
  /-- ERR, STATUS[1] (R30). -/
  err       : Bool
  /-- DV, STATUS[2] (R31). -/
  dv        : Bool
  /-- ERRCODE, STATUS[7:4] (R30). -/
  errCode   : BitVec 4
  /-- DIGEST_A..D; none = unwritten (R32). -/
  digest    : Quad (Option Word)
  /-- CMDLATCH, the command being executed (R34). -/
  cmdLatch  : Word
  /-- FAULT: a recorded model fault, never cleared (R225). -/
  fault     : Option Fault
  /-- The host operations still to come, the next one first (R86; log entry 1). -/
  program   : List HostOp
  /-- The values the host has read, oldest first (R248; log entry 1). -/
  reads     : List Reading
  /-- The values `getdout` has bound, oldest first (R88; log entry 15). -/
  joined    : List Joined
  /-- CMD_LATENCY of the coming commands, where the run's premises give it (R8; log entry 2). -/
  latencies : List Nat
  /-- How many commands have been issued: the counter of the free value `Config.cmdLatency` (log entry 2). -/
  issued    : Nat
  /-- How many host steps still come before the engine's step of the command in flight (R246; log entry 2). -/
  delay     : Nat
deriving DecidableEq, Repr

/-- Power-on: "the state after reset (R240), with FAULT = none" (R242). The reset value of CMDLATCH is unspecified (R34):
zero here, DESIGN CHOICE (log entry 4). No host operation is pending (log entry 1). -/
def State.reset : State where
  acc       := iv
  buf       := []
  bitLen    := 0
  busy      := false
  err       := false
  dv        := false
  errCode   := 0
  digest    := ⟨none, none, none, none⟩
  cmdLatch  := 0
  fault     := none
  program   := []
  reads     := []
  joined    := []
  latencies := []
  issued    := 0
  delay     := 0

end Sys2Proof.Machine
end

