-- ==== Sys2Proof/Machine/Compression.lean ====
section
/-!
DEFINITION. The compression core (42_compression.md R140 to R153): round functions, message index, one step, the block
transform and the multi-block compress. Every sum wraps modulo 2^32; nothing here writes a flag.
-/
namespace Sys2Proof.Machine

/-- `rotl(x, s) = (x << s) | (x >> (32 - s))` for 0 <= s <= 31 (00_scope.md R10). -/
def rotl (x : Word) (s : Nat) : Word := (x <<< s) ||| (x >>> (32 - s))

/-! ## Round functions and message index -/

/-- F, round 1 (R143): selects c where b is 1, d where b is 0. -/
def roundF (b c d : Word) : Word := (b &&& c) ||| (~~~b &&& d)

/-- G, round 2 (R144): selects b where d is 1, c where d is 0. -/
def roundG (b c d : Word) : Word := (d &&& b) ||| (~~~d &&& c)

/-- H, round 3 (R145). -/
def roundH (b c d : Word) : Word := b ^^^ c ^^^ d

/-- I, round 4 (R146). -/
def roundI (b c d : Word) : Word := c ^^^ (b ||| ~~~d)

/-- `fsel` (R152): the round function of step `i`. -/
def fsel (i : Fin 64) (b c d : Word) : Word :=
  if i.val < 16 then roundF b c d
  else if i.val < 32 then roundG b c d
  else if i.val < 48 then roundH b c d
  else roundI b c d

/-- The message index g(i) (R147), "on natural numbers" (R153). -/
def msgIndex (i : Fin 64) : Fin 16 :=
  if i.val < 16 then Fin.ofNat 16 i.val
  else if i.val < 32 then Fin.ofNat 16 (5 * i.val + 1)
  else if i.val < 48 then Fin.ofNat 16 (3 * i.val + 5)
  else Fin.ofNat 16 (7 * i.val)

/-! ## Step, block, buffer -/

/-- A block: exactly 64 bytes (R14). -/
abbrev Block := Vector Byte 64

/-- `parse(B)` (R150): message word `k` of a block. -/
def msgWord (blk : Block) (k : Fin 16) : Word :=
  bytesToWordLe blk[4 * k.val] blk[4 * k.val + 1] blk[4 * k.val + 2] blk[4 * k.val + 3]

/-- The sum of R148: `f + a + m[g(i)] + K[i]`, with f the round function's result. -/
def stepSum (i : Fin 64) (w : Quad Word) (m : Fin 16 → Word) : Word :=
  fsel i w.b w.c w.d + w.a + m (msgIndex i) + addConst i

/-- One step (R148): `a' = d`, `b' = b + rotl(sum, S[i])`, `c' = b` (the old b), `d' = c`. -/
def roundStep (i : Fin 64) (w : Quad Word) (m : Fin 16 → Word) : Quad Word :=
  ⟨w.d, w.b + rotl (stepSum i w m) (rotAmount i), w.b, w.c⟩

/-- The loop of R149: steps i = 0 .. 63, in order. -/
def roundSteps (w : Quad Word) (m : Fin 16 → Word) : Quad Word :=
  (List.finRange 64).foldl (fun v i => roundStep i v m) w

/-- Word by word addition of two accumulators, each sum modulo 2^32 (R149). -/
def addWords (x y : Quad Word) : Quad Word := ⟨x.a + y.a, x.b + y.b, x.c + y.c, x.d + y.d⟩

/-- The block transform (R149): the 64 steps from the accumulator, and the feed-forward to "the accumulator the block
started from". -/
def block (acc : Quad Word) (blk : Block) : Quad Word := addWords acc (roundSteps acc (msgWord blk))

/-- A byte sequence as a block, where it is exactly 64 bytes long. -/
def blockOfList? (bytes : List Byte) : Option Block :=
  if h : bytes.length = 64 then some ⟨bytes.toArray, by simpa using h⟩ else none

/-- The loop of R151 over the first `n` blocks of `bytes`, in order, each starting from the previous block's result. -/
def compressBlocks : Nat → List Byte → Quad Word → Except Fault (Quad Word)
  | 0, _, acc => .ok acc
  | n + 1, bytes, acc =>
    match blockOfList? (bytes.take 64) with
    | some blk => compressBlocks n (bytes.drop 64) (block acc blk)
    | none => .error .blockLengthViolation

/-- `compress(P, acc)` (R151, R140): BlockLengthViolation unless the length is a multiple of 64; an empty P leaves the
accumulator as it is. -/
def compress (bytes : List Byte) (acc : Quad Word) : Except Fault (Quad Word) :=
  if bytes.length % 64 ≠ 0 then .error .blockLengthViolation
  else compressBlocks (bytes.length / 64) bytes acc

end Sys2Proof.Machine
end

