-- ==== Sys2Proof/Machine/Flags.lean ====
section
/-!
DEFINITION. The engine's only flags, the STATUS fields BUSY, ERR, DV and ERRCODE (10_state.md R28 to R31, R38), and the
word a STATUS read returns. "Only a CMD write, a command's completion and reset write them" (R38).
-/
namespace Sys2Proof.Machine

/-- STATUS (R28): `zext_32(ERRCODE ++ 0b0 ++ DV ++ ERR ++ BUSY)`. -/
def statusWord (s : State) : Word :=
  (s.errCode ++ 0#1 ++ BitVec.ofBool s.dv ++ BitVec.ofBool s.err ++ BitVec.ofBool s.busy : BitVec 8).setWidth 32

/-- STATUS[0] of a word read from STATUS (R28): what the `wait` loop tests (R88). -/
def statusBusyBit (v : Word) : Bool := v.getLsbD 0

/-- ERR and ERRCODE to 0, as a CMD write does (R30). -/
def clearError (s : State) : State := { s with err := false, errCode := 0 }

/-- The hardware errors (60_exceptions.md R221). -/
inductive HwError where
  /-- ILLEGAL_COMMAND: "the issued word decodes to Illegal". -/
  | illegalCommand
deriving DecidableEq, Repr

/-- The ERRCODE of a hardware error (R221). -/
def HwError.code (e : HwError) : BitVec 4 :=
  match e with
  | .illegalCommand => codeIllegalCommand

/-- `raise HwError(code)`: "sets ERR <- 1 and ERRCODE <- code and writes nothing else" (R171). -/
def raiseHwError (e : HwError) (s : State) : State := { s with err := true, errCode := e.code }

/-- The completion of a command: BUSY <- 0 (R171). -/
def complete (s : State) : State := { s with busy := false }

end Sys2Proof.Machine
end

