-- ==== Sys2Proof/Machine/Ops.lean ====
section
/-!
DEFINITION. The named operations over the block buffer and the registers (10_state.md R37, 20_memory.md), the issue of a
command (43_commands.md R170), reset (70_reset_and_hazards.md R240), and the recording of a model fault
(60_exceptions.md R225). The engine takes no trap and returns from none (R229): a hardware error is reported in place by
`raiseHwError` (Flags.lean), which is the one operation of that kind.
-/
namespace Sys2Proof.Machine

/-! ## Byte storage -/

/-- The byte at an offset; none where nothing has been written (R25). -/
def Memory.read (m : Memory) (a : Nat) : Option Byte :=
  match m with
  | [] => none
  | (x, v) :: rest => if x = a then some v else Memory.read rest a

/-- Store a byte, keeping the offsets strictly rising. No byte value is the unwritten one, so a store never removes an
entry. -/
def Memory.write (m : Memory) (a : Nat) (b : Byte) : Memory :=
  match m with
  | [] => [(a, b)]
  | (x, v) :: rest =>
    if a < x then (a, b) :: (x, v) :: rest
    else if a = x then (a, b) :: rest
    else (x, v) :: Memory.write rest a b

/-- The canonical form: offsets strictly rising, all of them in BUF, 0x00 to 0x3F (R25). -/
def Memory.wf (m : Memory) : Bool :=
  match m with
  | [] => true
  | [(x, _)] => decide (x < 0x40)
  | (x, _) :: (y, w) :: rest => decide (x < y) && Memory.wf ((y, w) :: rest)

/-- The `n` bytes from `start` up; none if one of them is unwritten. -/
def Memory.readRun (m : Memory) (start n : Nat) : Option (List Byte) :=
  match n with
  | 0 => some []
  | k + 1 =>
    match m.read start, Memory.readRun m (start + 1) k with
    | some b, some bs => some (b :: bs)
    | _, _ => none

/-- The little-endian word at an offset (R55); none if one of its bytes is unwritten. -/
def Memory.readWord (m : Memory) (off : Nat) : Option Word :=
  match m.read off, m.read (off + 1), m.read (off + 2), m.read (off + 3) with
  | some y0, some y1, some y2, some y3 => some (bytesToWordLe y0 y1 y2 y3)
  | _, _, _, _ => none

/-- Store a word's four bytes, least significant first (R56). -/
def Memory.writeWord (m : Memory) (off : Nat) (v : Word) : Memory :=
  match wordToBytesLe v with
  | (y0, y1, y2, y3) => (((m.write off y0).write (off + 1) y1).write (off + 2) y2).write (off + 3) y3

/-! ## The register map (R37) -/

/-- The word registers of the window, in the order of R37. -/
inductive WordReg where
  | accA | accB | accC | accD
  | bitLenLo | bitLenHi
  | cmd
  | status
  | digestA | digestB | digestC | digestD
  | dout0 | dout1 | dout2 | dout3
deriving DecidableEq, Repr

/-- The offset of a word register (R37, R87). -/
def WordReg.offset (r : WordReg) : Nat :=
  match r with
  | .accA => 0x40 | .accB => 0x44 | .accC => 0x48 | .accD => 0x4C
  | .bitLenLo => 0x50 | .bitLenHi => 0x54
  | .cmd => 0x58
  | .status => 0x5C
  | .digestA => 0x60 | .digestB => 0x64 | .digestC => 0x68 | .digestD => 0x6C
  | .dout0 => 0x70 | .dout1 => 0x74 | .dout2 => 0x78 | .dout3 => 0x7C

/-- The word register at an offset. Every word-aligned offset from 0x40 to 0x7C has one. -/
def wordRegAt (off : Nat) : Option WordReg :=
  match off with
  | 0x40 => some .accA | 0x44 => some .accB | 0x48 => some .accC | 0x4C => some .accD
  | 0x50 => some .bitLenLo | 0x54 => some .bitLenHi
  | 0x58 => some .cmd
  | 0x5C => some .status
  | 0x60 => some .digestA | 0x64 => some .digestB | 0x68 => some .digestC | 0x6C => some .digestD
  | 0x70 => some .dout0 | 0x74 => some .dout1 | 0x78 => some .dout2 | 0x7C => some .dout3
  | _ => none

/-- The four DIGEST words, where all are written. -/
def digestWords (s : State) : Option (Quad Word) :=
  match s.digest.a, s.digest.b, s.digest.c, s.digest.d with
  | some a, some b, some c, some d => some ⟨a, b, c, d⟩
  | _, _, _, _ => none

/-- DOUTk = D[32k+31:32k] of D = format_digest(DIGEST) (R33). -/
def doutView (k : Nat) (w : Quad Word) : Word := (formatDigest w).extractLsb' (32 * k) 32

/-- A read of one DIGEST word (R32): UnwrittenRead while DV = 0. With DV = 1 the word is written in every reachable state
(`State.Inv`); in another state the read faults too (log entry 14). -/
def readDigest (s : State) (w : Option Word) : Except Fault Word :=
  if s.dv = false then .error .unwrittenRead
  else match w with
    | some v => .ok v
    | none => .error .unwrittenRead

/-- A read of DOUTk (R33). -/
def readDout (s : State) (k : Nat) : Except Fault Word :=
  if s.dv = false then .error .unwrittenRead
  else match digestWords s with
    | some w => .ok (doutView k w)
    | none => .error .unwrittenRead

/-- The value a host reads from a word register (the `case` of R55). CMD is write-only (R27). -/
def readReg (r : WordReg) (s : State) : Except Fault Word :=
  match r with
  | .accA => .ok s.acc.a
  | .accB => .ok s.acc.b
  | .accC => .ok s.acc.c
  | .accD => .ok s.acc.d
  | .bitLenLo => .ok (lowWord s.bitLen)
  | .bitLenHi => .ok (highWord s.bitLen)
  | .cmd => .error .accessDenied
  | .status => .ok (statusWord s)
  | .digestA => readDigest s s.digest.a
  | .digestB => readDigest s s.digest.b
  | .digestC => readDigest s s.digest.c
  | .digestD => readDigest s s.digest.d
  | .dout0 => readDout s 0
  | .dout1 => readDout s 1
  | .dout2 => readDout s 2
  | .dout3 => readDout s 3

/-! ## Issue and fetch of a command -/

/-- CMD_LATENCY of the command being issued: the run's own value where it gives one, else the free value (log entry 2). The
run's values are this instance's own. The free value is the same for the `k`-th command of every instance: the spec relates
the latencies of two instances nowhere, and this is DESIGN CHOICE (log entry 22). -/
def nextLatency (s : State) : Nat :=
  match s.latencies with
  | n :: _ => n
  | [] => Config.cmdLatency s.issued

/-- Put a command word in CMDLATCH with BUSY = 1 and ERR and ERRCODE cleared: the acceptance of R170. -/
def latchCommand (v : Word) (s : State) : State :=
  { clearError s with cmdLatch := v, busy := true }

/-- `issue(v)` (R170), and the choice of this command's CMD_LATENCY. "Decoding happens at the engine step, not at issue." -/
def issue (v : Word) (s : State) : State :=
  { latchCommand v s with
    delay := nextLatency s, latencies := s.latencies.tail, issued := s.issued + 1 }

/-- The word the engine's step decodes: "the engine's step reads CMDLATCH and not the bus" (R64). -/
def fetchCommand (s : State) : Word := s.cmdLatch

/-- The value a host writes to a word register (the `case` of R56). STATUS, DIGEST and DOUT are read-only. -/
def writeReg (r : WordReg) (v : Word) (s : State) : Except Fault State :=
  match r with
  | .accA => .ok { s with acc := { s.acc with a := v } }
  | .accB => .ok { s with acc := { s.acc with b := v } }
  | .accC => .ok { s with acc := { s.acc with c := v } }
  | .accD => .ok { s with acc := { s.acc with d := v } }
  | .bitLenLo => .ok { s with bitLen := joinWords (highWord s.bitLen) v }
  | .bitLenHi => .ok { s with bitLen := joinWords v (lowWord s.bitLen) }
  | .cmd => .ok (issue v s)
  | .status => .error .accessDenied
  | .digestA => .error .accessDenied
  | .digestB => .error .accessDenied
  | .digestC => .error .accessDenied
  | .digestD => .error .accessDenied
  | .dout0 => .error .accessDenied
  | .dout1 => .error .accessDenied
  | .dout2 => .error .accessDenied
  | .dout3 => .error .accessDenied

/-! ## Results, reset, faults -/

/-- DIGEST <- the four words, DV <- 1 (R177). -/
def recordDigest (w : Quad Word) (s : State) : State :=
  { s with digest := ⟨some w.a, some w.b, some w.c, some w.d⟩, dv := true }

/-- The `rst` event (R240): every register of the engine to its reset value, a command in flight discarded (R241), FAULT
unchanged (R225). The host's own side (its remaining program, what it has read, the latencies to come) is no state of the
engine and stays (log entry 6). -/
def hostReset (s : State) : State :=
  { State.reset with
    fault := s.fault, program := s.program, reads := s.reads, joined := s.joined, latencies := s.latencies, issued := s.issued }

/-- The state a step leaves, with FAULT recorded where it ends in a model fault: "a fault raised inside an access or a
command writes none of that access's or command's other effects" (R225). A refused form leaves the state as it is. -/
def recordOutcome (s : State) (o : Host.Outcome State Fault Refusal) : State :=
  match o with
  | .next t => t
  | .fault k => { s with fault := some k }
  | .refused _ => s

end Sys2Proof.Machine
end

