-- ==== Sys2Proof/Machine/Preprocess.lean ====
section
/-!
DEFINITION. The preprocessor (41_preprocessor.md R120 to R127): terminator, zero padding, length field. It is the
two-branch rule that R127 and 90_conflicts.md C1 to C3 and C7 settle on.
-/
namespace Sys2Proof.Machine

/-- n of R120, the count of the terminator and the zero bytes together, for a tail of `len` bytes: `56 - len mod 64`, a
signed number, plus 64 "if n <= 0". -/
def padCount (len : Nat) : Int :=
  let n : Int := 56 - (len % 64 : Nat)
  if n ≤ 0 then n + 64 else n

/-- z of R120, the zero-byte count: `z = n - 1`, `0 <= z <= 63`. -/
def zeroCount (len : Nat) : Nat := (padCount len - 1).toNat

/-- `preprocess(tail, bitlen)` (R120): `tail ‖ 0x80 ‖ 0x00^z ‖ length_to_bytes_le(bitlen)`. -/
def preprocess (tail : List Byte) (bitLen : Len64) : List Byte :=
  tail ++ [0x80#8] ++ List.replicate (zeroCount tail.length) 0x00#8 ++ lengthToBytesLe bitLen

end Sys2Proof.Machine
end

