-- ==== Sys2Proof/Machine/Operands.lean ====
section
/-!
DEFINITION. The operands of the commands (30_encoding.md R81: TAILLEN in the word; the accumulator, the block bytes and
the bit length "implicit and read from engine registers at the engine step").
-/
namespace Sys2Proof.Machine

/-- COMPRESS's block B = (BUF[0], ..., BUF[63]) (R176); none if one byte is unwritten. -/
def blockOperand (s : State) : Option Block :=
  match s.buf.readRun 0 64 with
  | some bytes => blockOfList? bytes
  | none => none

/-- FINALIZE's tail T = (BUF[0], ..., BUF[n-1]), "empty when n = 0" (R177); none if one byte is unwritten. -/
def tailOperand (n : Nat) (s : State) : Option (List Byte) := s.buf.readRun 0 n

/-- FINALIZE's padded buffer P = preprocess(T, BITLEN) (R177). -/
def paddedOperand (tail : List Byte) (s : State) : List Byte := preprocess tail s.bitLen

end Sys2Proof.Machine
end

