-- ==== Sys2Proof/Machine/DigestCommands.lean ====
section
/-!
DEFINITION. The commands that run the core on message bytes: COMPRESS (43_commands.md R176) and FINALIZE (R177). A command
that meets an unwritten byte "ends in that fault": nothing of it is written and BUSY stays 1 (R171; 60_exceptions.md R224, 92
D17).
-/
namespace Sys2Proof.Machine

/-- COMPRESS (R176): UnwrittenRead if a BUF byte is unwritten; else `ACC <- block(ACC, B)`, then BUSY <- 0. -/
def execCompress (s : State) : Host.Outcome State Fault Refusal :=
  match blockOperand s with
  | none => .fault .unwrittenRead
  | some blk => .next (complete { s with acc := block s.acc blk })

/-- FINALIZE n (R177): UnwrittenRead if one of BUF[0..n-1] is unwritten; else `DIGEST <- compress(P, ACC)`, `DV <- 1`, then
BUSY <- 0. The core's own fault cannot arise here: P has 64 or 128 bytes (R151). A tail length above 63 has no encoding
(R126) and is refused. -/
def execFinalize (n : Nat) (s : State) : Host.Outcome State Fault Refusal :=
  if 63 < n then .refused .tailNotEncodable
  else match tailOperand n s with
    | none => .fault .unwrittenRead
    | some tail =>
      match compress (paddedOperand tail s) s.acc with
      | .error k => .fault k
      | .ok w => .next (complete (recordDigest w s))

end Sys2Proof.Machine
end

