-- ==== Sys2Proof/Machine/SystemCommands.lean ====
section
/-!
DEFINITION. The commands that read no message data: NOP (43_commands.md R174), INIT (R175), and what an Illegal word
does (R173). Each is the body of the engine's step for it, with the completion of R171.
-/
namespace Sys2Proof.Machine

/-- NOP (R174): `skip`, then BUSY <- 0. -/
def execNop (s : State) : Host.Outcome State Fault Refusal := .next (complete s)

/-- INIT (R175): `ACC <- IV`, then BUSY <- 0. BUF, BITLEN, DIGEST and DV stay. -/
def execInit (s : State) : Host.Outcome State Fault Refusal := .next (complete { s with acc := iv })

/-- An Illegal word (R173): the hardware error ILLEGAL_COMMAND, "always", then BUSY <- 0. No operand is read (R227). -/
def execIllegal (s : State) : Host.Outcome State Fault Refusal :=
  .next (complete (raiseHwError .illegalCommand s))

end Sys2Proof.Machine
end

