-- ==== Sys2Proof/Machine/Engine.lean ====
section
/-!
DEFINITION. The engine's step (43_commands.md R171), and which agent takes the next step of the run's one total order
(20_memory.md R61).
-/
namespace Sys2Proof.Machine

/-- `engine_step()` (R171): decode CMDLATCH, perform the whole command as one transition. Enabled "iff BUSY == 1 and
FAULT == none", which `nextTurn` and `step` see to. -/
def engineStep (s : State) : Host.Outcome State Fault Refusal :=
  match decode (fetchCommand s) with
  | .error _ => execIllegal s
  | .ok i => exec i s

/-- Who takes the next step. -/
inductive Turn where
  | engine
  | host
  /-- No step is enabled. -/
  | idle
deriving DecidableEq, Repr

/-- The next agent. While BUSY = 1 the engine's step is enabled (R171); the host may go first for `delay` more steps,
CMD_LATENCY (R246), so every order that R61 and R241 admit is some value of `delay`, and since it is a number the engine's
step is always taken (R247). With BUSY = 0 the engine has no step (R171); with its program done the host has none. -/
def nextTurn (s : State) : Turn :=
  match s.busy, s.program.isEmpty with
  | true, true => .engine
  | true, false => if s.delay = 0 then .engine else .host
  | false, true => .idle
  | false, false => .host

end Sys2Proof.Machine
end

