-- ==== Sys2Proof/Machine/HostAccess.lean ====
section
/-!
DEFINITION. The host's accesses to the register window (20_memory.md R55, R56), and the host's steps: the operations of a
host program (30_encoding.md R86, R88).
-/
namespace Sys2Proof.Machine

/-- What a permitted read of BUF returns (R55): a byte for width 1, zero-extended; a little-endian word otherwise; UnwrittenRead
where a byte of it is unwritten (R55, R224). -/
def readBuf (off n : Nat) (s : State) : Except Fault Word :=
  if n = 1 then
    match s.buf.read off with
    | some b => .ok (b.setWidth 32)
    | none => .error .unwrittenRead
  else
    match s.buf.readWord off with
    | some v => .ok v
    | none => .error .unwrittenRead

/-- What a permitted write of BUF leaves (R56): one byte for width 1, four otherwise. -/
def writeBuf (off n : Nat) (v : Word) (s : State) : State :=
  if n = 1 then { s with buf := s.buf.write off (byteOf v 0) }
  else { s with buf := s.buf.writeWord off v }

/-- The checks that a read and a write share, in the order of R55 and R56: mapped, width, alignment. -/
def accessForm (off n : Nat) : Except Fault Unit :=
  if 0x80 ≤ off then .error .unmappedAccess
  else if off < 0x40 ∧ n ≠ 1 ∧ n ≠ 4 then .error .unsupportedWidth
  else if 0x40 ≤ off ∧ n ≠ 4 then .error .unsupportedWidth
  else if off % n ≠ 0 then .error .misalignedAccess
  else .ok ()

/-- The checks of HostRead, in the order of R55: form, rights (CMD is write-only), BUSY. -/
def readChecks (off n : Nat) (s : State) : Except Fault Unit :=
  match accessForm off n with
  | .error k => .error k
  | .ok () =>
    if off = 0x58 then .error .accessDenied
    else if s.busy = true ∧ off ≠ 0x5C then .error .hostAccessWhileBusy
    else .ok ()

/-- The checks of HostWrite, in the order of R56: form, rights (STATUS, DIGEST, DOUT are read-only), BUSY. -/
def writeChecks (off n : Nat) (s : State) : Except Fault Unit :=
  match accessForm off n with
  | .error k => .error k
  | .ok () =>
    if 0x5C ≤ off then .error .accessDenied
    else if s.busy = true then .error .hostAccessWhileBusy
    else .ok ()

/-- `HostRead(off, n)` (R55). "A read changes no state." A byte is zero-extended to a word. -/
def hostRead (off n : Nat) (s : State) : Except Fault Word :=
  match readChecks off n s with
  | .error k => .error k
  | .ok () =>
    if off < 0x40 then readBuf off n s
    else match wordRegAt off with
      | some r => readReg r s
      | none => .error .unmappedAccess

/-- `HostWrite(off, n, v)` (R56). "Only the named bytes or register change." -/
def hostWrite (off n : Nat) (v : Word) (s : State) : Except Fault State :=
  match writeChecks off n s with
  | .error k => .error k
  | .ok () =>
    if off < 0x40 then .ok (writeBuf off n v s)
    else match wordRegAt off with
      | some r => writeReg r v s
      | none => .error .unmappedAccess

/-! ## The windows in the host's address space (R8, R50, R66)

R8 names one MD5_BASE and R66 gives each instance its own window. That instance `k` has a base of its own, and that
nothing relates two bases, is DESIGN CHOICE (log entry 11). -/

/-- The host address of an offset in the window of instance `k`. -/
def windowAddress (k off : Nat) : Nat := Config.md5Base k + off

/-- The offset, in the window of instance `k`, of a host address from its base up. What lies below the window is not the
engine's (R51). -/
def windowOffset (k addr : Nat) : Option Nat :=
  if Config.md5Base k ≤ addr then some (addr - Config.md5Base k) else none

/-! ## Host steps -/

/-- The value read, under its name, at the end of the host's readings (R248). -/
def recordRead (name : HostName) (width : Nat) (v : Word) (s : State) : State :=
  { s with reads := s.reads ++ [⟨name, width, v⟩] }

/-- The name under which `wait` keeps STATUS: "the last s is kept as `status`" (R88). -/
def statusName : HostName := ['s', 't', 'a', 't', 'u', 's']

/-- `rd8`, `rd32` (R86): NAME <- HostRead(off, width). -/
def hostOpRead (off width : Nat) (name : HostName) (s : State) : Host.Outcome State Fault Refusal :=
  match hostRead off width s with
  | .error k => .fault k
  | .ok v => .next (recordRead name width v s)

/-- `wr8`, `wr32` (R86): HostWrite(off, width, value). A value wider than the access is no program of R86 and is refused. -/
def hostOpWrite (off width value : Nat) (s : State) : Host.Outcome State Fault Refusal :=
  if 2 ^ (8 * width) ≤ value then .refused .immediateTooWide
  else match hostWrite off width (BitVec.ofNat 32 value) s with
    | .error k => .fault k
    | .ok t => .next t

/-- One round of `wait` (R88): a STATUS read; the loop goes on while bit 0 is 1. `s` is the state with the `wait` line
already taken from the program; it is put back for another round. -/
def hostOpWait (s : State) : Host.Outcome State Fault Refusal :=
  match hostRead WordReg.status.offset 4 s with
  | .error k => .fault k
  | .ok v =>
    if statusBusyBit v then .next (recordRead statusName 4 v { s with program := .wait :: s.program })
    else .next (recordRead statusName 4 v s)

/-- The value last read under a name. -/
def lookupRead (name : HostName) (reads : List Reading) : Option Word :=
  (reads.reverse.find? (fun r => r.name = name)).map Reading.value

/-- `t3 ++ t2 ++ t1 ++ t0` of R88, from the values last read under those names. -/
def joinedRead (reads : List Reading) : Option Word128 :=
  match lookupRead ['t', '3'] reads, lookupRead ['t', '2'] reads,
        lookupRead ['t', '1'] reads, lookupRead ['t', '0'] reads with
  | some t3, some t2, some t1, some t0 => some (t3 ++ t2 ++ t1 ++ t0 : BitVec 128)
  | _, _, _, _ => none

/-- Bind NAME to the joined value, where the four readings are there. -/
def bindJoined (name : HostName) (s : State) : State :=
  { s with joined := s.joined ++ (joinedRead s.reads).toList.map (Joined.mk name) }

/-- The last line of `getdout -> NAME` (R88): a read of DOUT0 under `t0`, after which NAME holds the four words. The binding
is the host's own record and no step of its own (R61). -/
def hostOpGetdoutEnd (name : HostName) (s : State) : Host.Outcome State Fault Refusal :=
  match hostRead WordReg.dout0.offset 4 s with
  | .error k => .fault k
  | .ok v => .next (bindJoined name (recordRead ['t', '0'] 4 v s))

/-- One operation of the host program. -/
def hostOp (op : HostOp) (s : State) : Host.Outcome State Fault Refusal :=
  match op with
  | .read off width name => hostOpRead off width name s
  | .write off width value => hostOpWrite off width value s
  | .rst => .next (hostReset s)
  | .wait => hostOpWait s
  | .getdoutEnd name => hostOpGetdoutEnd name s

/-- The host's step: its next operation, in program order (R61). It uses up one of the host steps that come before the
engine's (R246). -/
def hostStep (s : State) : Host.Outcome State Fault Refusal :=
  match s.program with
  | [] => .next s
  | op :: rest => hostOp op { s with program := rest, delay := s.delay - 1 }

end Sys2Proof.Machine
end

