-- ==== Sys2Proof/Machine/Step.lean ====
section
/-!
DEFINITION. One step of a run (20_memory.md R61): a host operation or an engine step. Reset is a host operation.
-/
namespace Sys2Proof.Machine

/-- One step. A recorded model fault enables no step (60_exceptions.md R225): the run has ended in it. Where no step is
enabled and no fault is recorded, the state stays as it is (log entry 3). -/
def step (s : State) : Host.Outcome State Fault Refusal :=
  match s.fault with
  | some k => .fault k
  | none =>
    match nextTurn s with
    | .engine => engineStep s
    | .host => hostStep s
    | .idle => .next s

/-- One step with FAULT recorded in the state (R223, R225): the transition on all states. -/
def stepState (s : State) : State := recordOutcome s (step s)

/-- The state `s` with the command word issued as 43_commands.md R170 issues it (BUSY = 1, ERR and ERRCODE cleared), no host
step before the engine's, and no recorded fault, so that the very next step is the engine's step of that word. A command
is one 32-bit word (30_encoding.md R85). Log entry 7. -/
def State.withFetchWord (s : State) (nbits w : Nat) : State :=
  { latchCommand (BitVec.ofNat 32 (w % 2 ^ nbits)) s with delay := 0, fault := none }

end Sys2Proof.Machine
end

