-- ==== Sys2Proof/Machine/Assembler.lean ====
section
/-!
DEFINITION. The assembler syntax for host programs and the disassembly of a command word (30_encoding.md R86 to R89).
Text is a list of characters. "A notation for programs and tests; no behaviour depends on it" (92 D27). What R86 leaves
open of the text itself (blanks, the characters of a name) is in log entry 17.
-/
namespace Sys2Proof.Machine

/-! ## Lines and their expansion (R86, R88) -/

/-- One line of a host program: an operation of R86 or a pseudo-instruction of R88. -/
inductive AsmLine where
  | wr32 (off imm : Nat)
  | wr8 (off imm : Nat)
  | rd32 (off : Nat) (name : HostName)
  | rd8 (off : Nat) (name : HostName)
  | rst
  | nop
  | init
  | compress
  | finalize (n : Nat)
  | cmd (imm : Nat)
  | wait
  | setlen (v : Nat)
  | ldbuf (off : Nat) (bytes : List Byte)
  | setacc (a b c d : Nat)
  | getacc (name : HostName)
  | getdout (name : HostName)
deriving DecidableEq, Repr

/-- Why a line is refused. -/
inductive AsmError where
  /-- No line of R86 or R88. -/
  | syntaxError
  /-- "A wider IMM is refused by the assembler" (R86). -/
  | immediateTooWide
  /-- `finalize N` with N above 63 (R88). -/
  | tailTooLong
deriving DecidableEq, Repr

/-- A command word written to CMD: `wr32 CMD, w` (R88). -/
def cmdWrite (w : Word) : HostOp := .write WordReg.cmd.offset 4 w.toNat

/-- A word write at an offset. -/
def wordWrite (off v : Nat) : HostOp := .write off 4 v

/-- `ldbuf OFF, bytes` (R88): "for each byte position p = OFF+t: if p mod 4 = 0 and at least 4 bytes remain, wr32 p ... and
advance 4; otherwise wr8 p, b[t] and advance 1". -/
def expandLdbuf (p : Nat) (bytes : List Byte) : List HostOp :=
  match bytes with
  | [] => []
  | b0 :: b1 :: b2 :: b3 :: rest =>
    if p % 4 = 0 then wordWrite p (bytesToWordLe b0 b1 b2 b3).toNat :: expandLdbuf (p + 4) rest
    else .write p 1 b0.toNat :: expandLdbuf (p + 1) (b1 :: b2 :: b3 :: rest)
  | b0 :: rest => .write p 1 b0.toNat :: expandLdbuf (p + 1) rest

/-- `setlen V` (R88). -/
def expandSetlen (v : Len64) : List HostOp :=
  [wordWrite WordReg.bitLenLo.offset (lowWord v).toNat,
   wordWrite WordReg.bitLenHi.offset (highWord v).toNat]

/-- `setacc A, B, C, D` (R88). -/
def expandSetacc (a b c d : Nat) : List HostOp :=
  [wordWrite WordReg.accA.offset a, wordWrite WordReg.accB.offset b,
   wordWrite WordReg.accC.offset c, wordWrite WordReg.accD.offset d]

/-- A word read into NAME. -/
def wordRead (r : WordReg) (name : HostName) : HostOp := .read r.offset 4 name

/-- `getacc -> NAME` (R88): into NAME.a, NAME.b, NAME.c, NAME.d. -/
def expandGetacc (name : HostName) : List HostOp :=
  [wordRead .accA (name ++ ['.', 'a']), wordRead .accB (name ++ ['.', 'b']),
   wordRead .accC (name ++ ['.', 'c']), wordRead .accD (name ++ ['.', 'd'])]

/-- `getdout -> NAME` (R88): DOUT3, DOUT2, DOUT1, DOUT0 into t3, t2, t1, t0, the last read binding NAME to the four. -/
def expandGetdout (name : HostName) : List HostOp :=
  [wordRead .dout3 ['t', '3'], wordRead .dout2 ['t', '2'], wordRead .dout1 ['t', '1'], .getdoutEnd name]

/-- The host operations of a line (R86, R88). -/
def expandLine (l : AsmLine) : List HostOp :=
  match l with
  | .wr32 off imm => [.write off 4 imm]
  | .wr8 off imm => [.write off 1 imm]
  | .rd32 off name => [.read off 4 name]
  | .rd8 off name => [.read off 1 name]
  | .rst => [.rst]
  | .nop => [cmdWrite (encode .nop)]
  | .init => [cmdWrite (encode .init)]
  | .compress => [cmdWrite (encode .compress)]
  | .finalize n => [cmdWrite (encode (.finalize n))]
  | .cmd imm => [wordWrite WordReg.cmd.offset imm]
  | .wait => [.wait]
  | .setlen v => expandSetlen (BitVec.ofNat 64 v)
  | .ldbuf off bytes => expandLdbuf off bytes
  | .setacc a b c d => expandSetacc a b c d
  | .getacc name => expandGetacc name
  | .getdout name => expandGetdout name

/-- The value last bound to NAME by `getdout -> NAME` (R88). -/
def getdoutValue (name : HostName) (joined : List Joined) : Option Word128 :=
  (joined.reverse.find? (fun j => j.name = name)).map Joined.value

/-- The NAME of `getacc -> NAME`: its four words. -/
def getaccValue (name : HostName) (reads : List Reading) : Option (Quad Word) :=
  match lookupRead (name ++ ['.', 'a']) reads, lookupRead (name ++ ['.', 'b']) reads,
        lookupRead (name ++ ['.', 'c']) reads, lookupRead (name ++ ['.', 'd']) reads with
  | some a, some b, some c, some d => some ⟨a, b, c, d⟩
  | _, _, _, _ => none

/-- The operands' ranges (R86: "a wider IMM is refused by the assembler"; R88: `finalize N` with 0 <= N <= 63, `setlen V`
with V a u64). -/
def checkLine (l : AsmLine) : Except AsmError AsmLine :=
  match l with
  | .wr32 _ imm => if imm < 2 ^ 32 then .ok l else .error .immediateTooWide
  | .wr8 _ imm => if imm < 2 ^ 8 then .ok l else .error .immediateTooWide
  | .rd32 _ _ => .ok l
  | .rd8 _ _ => .ok l
  | .rst => .ok l
  | .nop => .ok l
  | .init => .ok l
  | .compress => .ok l
  | .finalize n => if n ≤ 63 then .ok l else .error .tailTooLong
  | .cmd imm => if imm < 2 ^ 32 then .ok l else .error .immediateTooWide
  | .wait => .ok l
  | .setlen v => if v < 2 ^ 64 then .ok l else .error .immediateTooWide
  | .ldbuf _ _ => .ok l
  | .setacc a b c d =>
    if a < 2 ^ 32 ∧ b < 2 ^ 32 ∧ c < 2 ^ 32 ∧ d < 2 ^ 32 then .ok l else .error .immediateTooWide
  | .getacc _ => .ok l
  | .getdout _ => .ok l

/-! ## Text: tokens, numbers, offsets -/

/-- What a line is made of. -/
inductive Token where
  /-- A number, a symbol, a mnemonic or a name. -/
  | word (t : List Char)
  | comma
  | plus
  | arrow
  | lbrack
  | rbrack
  /-- The characters between two double quotes. -/
  | str (t : List Char)
deriving DecidableEq, Repr

/-- Inside a word (its characters so far, last first) or inside a quoted string. -/
inductive LexMode where
  | code (acc : List Char)
  | quoted (acc : List Char)

/-- A character of a word. -/
def isWordChar (c : Char) : Bool := c.isAlphanum || c == '_' || c == '.'

/-- The word read so far, before the tokens that follow it. -/
def flushWord (acc : List Char) (rest : List Token) : List Token :=
  if acc.isEmpty then rest else .word acc.reverse :: rest

/-- The tokens of a line; a comment runs from `;` to the end of the line (R86). None for a character that begins no
token, or an unclosed quote. A `;` between the quotes of a string is a character of the string and begins no comment: R86
and R88 leave that open, and it is DESIGN CHOICE (log entry 17). -/
def lexLine (mode : LexMode) (text : List Char) : Option (List Token) :=
  match mode, text with
  | .code acc, [] => some (flushWord acc [])
  | .code acc, ';' :: _ => some (flushWord acc [])
  | .code acc, ' ' :: r => (lexLine (.code []) r).map (flushWord acc)
  | .code acc, '\t' :: r => (lexLine (.code []) r).map (flushWord acc)
  | .code acc, ',' :: r => (lexLine (.code []) r).map fun t => flushWord acc (.comma :: t)
  | .code acc, '+' :: r => (lexLine (.code []) r).map fun t => flushWord acc (.plus :: t)
  | .code acc, '[' :: r => (lexLine (.code []) r).map fun t => flushWord acc (.lbrack :: t)
  | .code acc, ']' :: r => (lexLine (.code []) r).map fun t => flushWord acc (.rbrack :: t)
  | .code acc, '-' :: '>' :: r => (lexLine (.code []) r).map fun t => flushWord acc (.arrow :: t)
  | .code acc, '"' :: r => (lexLine (.quoted []) r).map (flushWord acc)
  | .code acc, c :: r => if isWordChar c then lexLine (.code (c :: acc)) r else none
  | .quoted _, [] => none
  | .quoted acc, '"' :: r => (lexLine (.code []) r).map fun t => .str acc.reverse :: t
  | .quoted acc, c :: r => lexLine (.quoted (c :: acc)) r

/-- The value of a digit: 0-9, and a-f or A-F for 10 to 15. -/
def digitValue (c : Char) : Option Nat :=
  if '0' ≤ c ∧ c ≤ '9' then some (c.toNat - '0'.toNat)
  else if 'a' ≤ c ∧ c ≤ 'f' then some (c.toNat - 'a'.toNat + 10)
  else if 'A' ≤ c ∧ c ≤ 'F' then some (c.toNat - 'A'.toNat + 10)
  else none

/-- Digits in a base, most significant first, after those already read (`acc`). -/
def digitsValue (base acc : Nat) (t : List Char) : Option Nat :=
  match t with
  | [] => some acc
  | c :: r =>
    match digitValue c with
    | some d => if d < base then digitsValue base (base * acc + d) r else none
    | none => none

/-- "Numbers are decimal or 0x hexadecimal" (R86). -/
def numberValue (t : List Char) : Option Nat :=
  match t with
  | [] => none
  | '0' :: 'x' :: r => if r.isEmpty then none else digitsValue 16 0 r
  | c :: r => digitsValue 10 0 (c :: r)

/-- The symbolic offsets (R87). -/
def symbolOffset (t : List Char) : Option Nat :=
  if t = "BUF".toList then some 0x00
  else if t = "ACC_A".toList then some WordReg.accA.offset
  else if t = "ACC_B".toList then some WordReg.accB.offset
  else if t = "ACC_C".toList then some WordReg.accC.offset
  else if t = "ACC_D".toList then some WordReg.accD.offset
  else if t = "BITLEN_LO".toList then some WordReg.bitLenLo.offset
  else if t = "BITLEN_HI".toList then some WordReg.bitLenHi.offset
  else if t = "CMD".toList then some WordReg.cmd.offset
  else if t = "STATUS".toList then some WordReg.status.offset
  else if t = "DIGEST_A".toList then some WordReg.digestA.offset
  else if t = "DIGEST_B".toList then some WordReg.digestB.offset
  else if t = "DIGEST_C".toList then some WordReg.digestC.offset
  else if t = "DIGEST_D".toList then some WordReg.digestD.offset
  else if t = "DOUT0".toList then some WordReg.dout0.offset
  else if t = "DOUT1".toList then some WordReg.dout1.offset
  else if t = "DOUT2".toList then some WordReg.dout2.offset
  else if t = "DOUT3".toList then some WordReg.dout3.offset
  else none

/-- A number or a symbol, as an offset (R86). -/
def offsetBase (t : List Char) : Option Nat :=
  match symbolOffset t with
  | some o => some o
  | none => numberValue t

/-- OFF of R86, "a number or a symbolic offset of R87, optionally SYM+NUM", and the tokens after it. -/
def parseOffset (ts : List Token) : Option (Nat × List Token) :=
  match ts with
  | .word t :: .plus :: .word u :: r =>
    match symbolOffset t, numberValue u with
    | some o, some n => some (o + n, r)
    | _, _ => none
  | .word t :: r => (offsetBase t).map fun o => (o, r)
  | _ => none

/-- "A quoted string stands for its bytes in ASCII" (R88); a character outside ASCII is refused. -/
def asciiBytes (t : List Char) : Option (List Byte) :=
  match t with
  | [] => some []
  | c :: r => if c.toNat < 128 then (asciiBytes r).map fun bs => BitVec.ofNat 8 c.toNat :: bs else none

/-- The bytes after `[` up to `]`: numbers below 256 with commas between them (R88). -/
def parseByteList (ts : List Token) : Option (List Byte) :=
  match ts with
  | [.rbrack] => some []
  | [.word t, .rbrack] => (numberValue t).bind fun n => if n < 256 then some [BitVec.ofNat 8 n] else none
  | .word t :: .comma :: r =>
    (numberValue t).bind fun n =>
      if n < 256 then (parseByteList r).map fun bs => BitVec.ofNat 8 n :: bs else none
  | _ => none

/-! ## Text: lines -/

/-- `OFF, IMM`. -/
def parseWrite (ts : List Token) (mk : Nat → Nat → AsmLine) : Option AsmLine :=
  match parseOffset ts with
  | some (off, [.comma, .word t]) => (numberValue t).map (mk off)
  | _ => none

/-- `OFF -> NAME`. -/
def parseRead (ts : List Token) (mk : Nat → HostName → AsmLine) : Option AsmLine :=
  match parseOffset ts with
  | some (off, [.arrow, .word name]) => some (mk off name)
  | _ => none

/-- `OFF, "bytes"` or `OFF, [b0, b1, ...]`. -/
def parseLdbuf (ts : List Token) : Option AsmLine :=
  match parseOffset ts with
  | some (off, [.comma, .str t]) => (asciiBytes t).map (.ldbuf off)
  | some (off, .comma :: .lbrack :: r) => (parseByteList r).map (.ldbuf off)
  | _ => none

/-- `A, B, C, D`. -/
def parseSetacc (ts : List Token) : Option AsmLine :=
  match ts with
  | [.word a, .comma, .word b, .comma, .word c, .comma, .word d] =>
    match numberValue a, numberValue b, numberValue c, numberValue d with
    | some a, some b, some c, some d => some (.setacc a b c d)
    | _, _, _, _ => none
  | _ => none

/-- One number. -/
def parseNumber (ts : List Token) (mk : Nat → AsmLine) : Option AsmLine :=
  match ts with
  | [.word t] => (numberValue t).map mk
  | _ => none

/-- `-> NAME`. -/
def parseInto (ts : List Token) (mk : HostName → AsmLine) : Option AsmLine :=
  match ts with
  | [.arrow, .word name] => some (mk name)
  | _ => none

/-- No operand. -/
def parseBare (ts : List Token) (l : AsmLine) : Option AsmLine := if ts.isEmpty then some l else none

/-- A line from its mnemonic and the tokens after it. -/
def parseLine (mnemonic : List Char) (ts : List Token) : Option AsmLine :=
  if mnemonic = "wr32".toList then parseWrite ts .wr32
  else if mnemonic = "wr8".toList then parseWrite ts .wr8
  else if mnemonic = "rd32".toList then parseRead ts .rd32
  else if mnemonic = "rd8".toList then parseRead ts .rd8
  else if mnemonic = "rst".toList then parseBare ts .rst
  else if mnemonic = "nop".toList then parseBare ts .nop
  else if mnemonic = "init".toList then parseBare ts .init
  else if mnemonic = "compress".toList then parseBare ts .compress
  else if mnemonic = "finalize".toList then parseNumber ts .finalize
  else if mnemonic = "cmd".toList then parseNumber ts .cmd
  else if mnemonic = "wait".toList then parseBare ts .wait
  else if mnemonic = "setlen".toList then parseNumber ts .setlen
  else if mnemonic = "ldbuf".toList then parseLdbuf ts
  else if mnemonic = "setacc".toList then parseSetacc ts
  else if mnemonic = "getacc".toList then parseInto ts .getacc
  else if mnemonic = "getdout".toList then parseInto ts .getdout
  else none

/-- The host operations of one line of text: "one host operation, a comment or blank" (R86). -/
def assembleLine (text : List Char) : Except AsmError (List HostOp) :=
  match lexLine (.code []) text with
  | some [] => .ok []
  | some (.word mnemonic :: ts) =>
    match parseLine mnemonic ts with
    | some l =>
      match checkLine l with
      | .ok l => .ok (expandLine l)
      | .error e => .error e
    | none => .error .syntaxError
  | _ => .error .syntaxError

/-- The host operations of a program, "a sequence of lines" (R86). -/
def assemble (lines : List (List Char)) : Except AsmError (List HostOp) :=
  match lines with
  | [] => .ok []
  | l :: rest =>
    match assembleLine l, assemble rest with
    | .ok ops, .ok more => .ok (ops ++ more)
    | .error e, _ => .error e
    | .ok _, .error e => .error e

/-! ## Disassembly (R89) -/

/-- The line a command word is printed as: `cmd` for an Illegal word. -/
def disassemble (w : Word) : AsmLine :=
  match decode w with
  | .ok .nop => .nop
  | .ok .init => .init
  | .ok .compress => .compress
  | .ok (.finalize n) => .finalize n
  | .error _ => .cmd w.toNat

/-- A digit as `%x` prints it. -/
def digitChar (d : Nat) : Char :=
  if d < 10 then Char.ofNat ('0'.toNat + d) else Char.ofNat ('a'.toNat + (d - 10))

/-- The last `k` hexadecimal digits of a number, most significant first (`%08x` for k = 8). -/
def hexDigits (k n : Nat) : List Char :=
  match k with
  | 0 => []
  | j + 1 => hexDigits j (n / 16) ++ [digitChar (n % 16)]

/-- N "in decimal", for a number below 100. -/
def decimalDigits (n : Nat) : List Char :=
  if n < 10 then [digitChar n] else [digitChar (n / 10), digitChar (n % 10)]

/-- The printed text of a command word (R89). -/
def disassembleText (w : Word) : List Char :=
  match decode w with
  | .ok .nop => "nop".toList
  | .ok .init => "init".toList
  | .ok .compress => "compress".toList
  | .ok (.finalize n) => "finalize ".toList ++ decimalDigits n
  | .error _ => "cmd 0x".toList ++ hexDigits 8 w.toNat

end Sys2Proof.Machine
end

