-- ==== Sys2Proof/Machine/Streaming.lean ====
section
/-!
DEFINITION. The host-side Digest State and its functions `new`, `consume`, `digest`, `calculate` (44_host_streaming.md R200
to R206). They are software around the engine (00_scope.md R4); "the source's testable properties are stated through them".
A state is a value: `consume` returns a new one (R206).
-/
namespace Sys2Proof.Machine

/-- The Digest State (R200): accumulator, the bytes not yet folded, the count of bytes ever consumed. -/
structure DigestState where
  acc         : Quad Word
  buffer      : List Byte
  totalLength : Len64
deriving DecidableEq, Repr

/-- `new()` (R201): "fixed initial accumulator, empty buffer, zero counter". -/
def digestNew : DigestState := ⟨iv, [], 0⟩

/-- The drain of R202: "while len(buf) >= 64", fold the first 64 bytes and drop them. `fuel` bounds the rounds; the length
over 64 is enough. -/
def drain (fuel : Nat) (acc : Quad Word) (buf : List Byte) : Quad Word × List Byte :=
  match fuel with
  | 0 => (acc, buf)
  | n + 1 =>
    match blockOfList? (buf.take 64) with
    | some blk => drain n (block acc blk) (buf.drop 64)
    | none => (acc, buf)

/-- `consume(state, data)` (R202). The counter wraps modulo 2^64. -/
def consume (s : DigestState) (data : List Byte) : DigestState :=
  let buf := s.buffer ++ data
  let out := drain (buf.length / 64) s.acc buf
  ⟨out.1, out.2, s.totalLength + BitVec.ofNat 64 data.length⟩

/-- The bit length of R203: `(total_length * 8) mod 2^64`. -/
def bitLength (s : DigestState) : Len64 := s.totalLength * 8#64

/-- `digest(state)` (R203). The core's fault on a length that is no multiple of 64 is carried in the type; the padded buffer
never has such a length. -/
def digest (s : DigestState) : Except Fault Word128 :=
  match compress (preprocess s.buffer (bitLength s)) s.acc with
  | .ok w => .ok (formatDigest w)
  | .error k => .error k

/-- `calculate(x) = digest(consume(new(), x))` (R204). -/
def calculate (x : List Byte) : Except Fault Word128 := digest (consume digestNew x)

end Sys2Proof.Machine
end

