-- ==== Sys2Proof/Machine/Driver.lean ====
section
/-!
DEFINITION. The host's driver sequences for `consume` and `digest` on the engine (44_host_streaming.md R207, R208), as
host operations.
-/
namespace Sys2Proof.Machine

/-- The program of a list of lines. -/
def expandLines (ls : List AsmLine) : List HostOp := ls.flatMap expandLine

/-- `setacc s.acc`. -/
def setaccLine (acc : Quad Word) : AsmLine := .setacc acc.a.toNat acc.b.toNat acc.c.toNat acc.d.toNat

/-- The full 64-byte pieces at the front of a buffer, in order (step 3 of R207). -/
def fullBlocks (n : Nat) (buf : List Byte) : List (List Byte) :=
  match n with
  | 0 => []
  | k + 1 => buf.take 64 :: fullBlocks k (buf.drop 64)

/-- The name under which the driver reads the accumulator back. -/
def accName : HostName := ['a', 'c', 'c']

/-- The bytes of a buffer that fill no block: "the remaining < 64 bytes of buf" (step 5 of R207). -/
def remainder (buf : List Byte) : List Byte := buf.drop (64 * (buf.length / 64))

/-- The choices R207 leaves to a host (DESIGN CHOICE: they are an argument, log entry 21). -/
structure ConsumeForm where
  /-- Step 1 is left out: "the engine's ACC is known to hold s.acc already". -/
  accHeld   : Bool
  /-- The remaining bytes are left "in BUF[0..r-1] for a later FINALIZE". -/
  leaveTail : Bool
deriving DecidableEq, Repr

/-- `consume(s, data)` on the engine (R207), steps 1 to 4: setacc; for each full block ldbuf, compress, wait; getacc; and the
remaining bytes left in BUF, where the host chooses so. -/
def consumeLines (form : ConsumeForm) (s : DigestState) (data : List Byte) : List AsmLine :=
  let buf := s.buffer ++ data
  (if form.accHeld then [] else [setaccLine s.acc])
    ++ (fullBlocks (buf.length / 64) buf).flatMap (fun b => [.ldbuf 0x00 b, .compress, .wait])
    ++ [.getacc accName] ++ if form.leaveTail then [.ldbuf 0x00 (remainder buf)] else []

/-- Step 5 of R207: the host's new state, from the accumulator it has read back. -/
def consumedState (s : DigestState) (data : List Byte) (acc : Quad Word) : DigestState :=
  ⟨acc, remainder (s.buffer ++ data), s.totalLength + BitVec.ofNat 64 data.length⟩

/-- `digest(s)` where the engine holds s in ACC and BUF already: steps 3 to 5 of R208 (DESIGN CHOICE, log entry 21). -/
def heldDigestLines (name : HostName) (s : DigestState) : List AsmLine :=
  [.setlen (bitLength s).toNat, .finalize s.buffer.length, .wait, .getdout name]

/-- `digest(s)` on the engine (R208): setacc, ldbuf, setlen, finalize, wait, getdout into NAME. -/
def digestLines (name : HostName) (s : DigestState) : List AsmLine :=
  [setaccLine s.acc, .ldbuf 0x00 s.buffer] ++ heldDigestLines name s

/-- R207's sequence as host operations. -/
def consumeProgram (form : ConsumeForm) (s : DigestState) (data : List Byte) : List HostOp :=
  expandLines (consumeLines form s data)

/-- R208's steps 3 to 5 as host operations. -/
def heldDigestProgram (name : HostName) (s : DigestState) : List HostOp := expandLines (heldDigestLines name s)

/-- R208's sequence as host operations. -/
def digestProgram (name : HostName) (s : DigestState) : List HostOp := expandLines (digestLines name s)

end Sys2Proof.Machine
end

