-- ==== Sys2Proof/Machine/Instances.lean ====
section
/-!
DEFINITION. Several engine instances (00_scope.md R8 N_ENGINES; 20_memory.md R66; 60_exceptions.md R233): each has its own
state and window, each starts in the reset state, and a step of one reads and writes only that one. Where each window lies
is Config.md5Base, one free base per instance (log entry 11); the latencies an instance is not given are Config.cmdLatency's,
alike for all (log entry 22). Which instance steps next is an argument: the spec orders the
steps of one instance only.
-/
namespace Sys2Proof.Machine

/-- `n` instances at power-on: "every instance starts in the reset state" (R233). -/
def resetInstances (n : Nat) : List State := List.replicate n State.reset

/-- A step of instance `k`; none where there is no such instance. A fault or a refusal is that instance's own. -/
def stepInstance (k : Nat) (sys : List State) : Option (Host.Outcome (List State) Fault Refusal) :=
  match sys[k]? with
  | none => none
  | some s =>
    match step s with
    | .next t => some (.next (sys.set k t))
    | .fault f => some (.fault f)
    | .refused r => some (.refused r)

/-- The state of all instances after that step, with a fault recorded in the instance that raised it (R225). -/
def stepInstanceState (k : Nat) (sys : List State) : List State := sys.modify k stepState

end Sys2Proof.Machine
end

