-- ==== Sys2Proof/Safety.lean ====
section
/-!
DEFINITION. Runs, the end of a run and its observation (70_reset_and_hazards.md R248), and the invariant of the state.
-/
namespace Sys2Proof.Machine

/-- `k` steps of the run's one total order (20_memory.md R61), stopping at a fault or a refusal. -/
def runFor (k : Nat) (s : State) : Host.Outcome State Fault Refusal := Host.Core.run Sys2Proof.core k s

/-- Some number of steps leads from `s` to `t`, with no fault and no refusal on the way. -/
def Reaches (s t : State) : Prop := ∃ k, runFor k s = .next t

/-- The run has ended (R248): the host program is done, BUSY = 0 (so that no engine step is enabled), FAULT = none. "A state
with FAULT set is not a final state." -/
abbrev State.Final (s : State) : Prop := s.program = [] ∧ s.busy = false ∧ s.fault = none

/-- What a final state shows (R248): "the final state's ACC, BITLEN, STATUS, DIGEST and BUF, together with the values the
host read along the way". -/
structure Observation where
  acc    : Quad Word
  bitLen : Len64
  status : Word
  digest : Quad (Option Word)
  buf    : Memory
  reads  : List Reading
  joined : List Joined
deriving DecidableEq, Repr

/-- The observation of a state (R248). -/
def observe (s : State) : Observation := ⟨s.acc, s.bitLen, statusWord s, s.digest, s.buf, s.reads, s.joined⟩

/-- Every DIGEST word is written (R32: the words of the last completed FINALIZE). -/
abbrev DigestWritten (d : Quad (Option Word)) : Prop :=
  d.a.isSome = true ∧ d.b.isSome = true ∧ d.c.isSome = true ∧ d.d.isSome = true

/-- The invariant of the state: BUF is in its canonical form inside 0x00 to 0x3F (R25); ERRCODE is 0 with ERR = 0 and
ILLEGAL_COMMAND with ERR = 1, no other code (R30, R221); a command in flight has no error reported (R30, R170);
DIGEST is written exactly when DV = 1 (R31, R32). -/
structure State.Inv (s : State) : Prop where
  bufWf    : s.buf.wf = true
  errCode  : s.errCode = if s.err then codeIllegalCommand else 0
  busyErr  : s.busy = true → s.err = false
  digestDv : if s.dv then DigestWritten s.digest else s.digest = ⟨none, none, none, none⟩

end Sys2Proof.Machine
end

