-- ==== Sys2Proof/Certificates/Slice0/Obligations.lean ====
section
/-!
DEFINITION. The statements for the provers. Each docstring names the rule of spec/ it formalises; OBLIGATIONS.json lists
them.
-/

open Sys2Proof Sys2Proof.Machine

/-! ## Encoding -/

/-- R83. The fields are written with division and remainder on the word's value; exactly 67 words are legal. -/
def Obligations.DecodeRuleOnAllWords : Prop :=
  (∀ w : Word,
    (w.toNat / 2 ^ 4 % 16 ≠ 0 ∨ w.toNat / 2 ^ 14 ≠ 0 → ∃ why, decode w = .error why) ∧
    (w.toNat / 2 ^ 4 % 16 = 0 → w.toNat / 2 ^ 14 = 0 →
      (w.toNat / 2 ^ 8 % 64 = 0 → w.toNat % 16 = 0 → decode w = .ok .nop) ∧
      (w.toNat / 2 ^ 8 % 64 = 0 → w.toNat % 16 = 1 → decode w = .ok .init) ∧
      (w.toNat / 2 ^ 8 % 64 = 0 → w.toNat % 16 = 2 → decode w = .ok .compress) ∧
      (w.toNat % 16 = 3 → decode w = .ok (.finalize (w.toNat / 2 ^ 8 % 64))) ∧
      (w.toNat / 2 ^ 8 % 64 ≠ 0 → w.toNat % 16 < 3 → ∃ why, decode w = .error why) ∧
      (4 ≤ w.toNat % 16 → ∃ why, decode w = .error why))) ∧
  ∃ legal : List Word, legal.length = 67 ∧ legal.Nodup ∧ ∀ w, w ∈ legal ↔ ∃ i, decode w = .ok i

/-- R82: a word selects a mnemonic when `w & mask = match`; OP 0x4 to 0xF selects none. -/
def Obligations.MatchAndMaskSelectTheMnemonic : Prop :=
  ∀ w : Word,
    (decode w = .ok .nop ↔ w &&& 0xFFFFFFFF#32 = 0x00000000#32) ∧
    (decode w = .ok .init ↔ w &&& 0xFFFFFFFF#32 = 0x00000001#32) ∧
    (decode w = .ok .compress ↔ w &&& 0xFFFFFFFF#32 = 0x00000002#32) ∧
    ((∃ n, decode w = .ok (.finalize n)) ↔ w &&& 0xFFFFC0FF#32 = 0x00000003#32) ∧
    (4 ≤ w.toNat % 16 → ∃ why, decode w = .error why)

/-- Decode and encode agree, both ways (R80 to R83): the decoder gives exactly the well-formed instructions, each from
exactly its own word, with every tail length from 0 to 63. -/
def Obligations.DecodeIsTheInverseOfEncode : Prop :=
  ∀ (w : Word) (i : Instr), decode w = .ok i ↔ i.WellFormed ∧ encode i = w

/-- Words written out from R80's format and R82's table (95_test_vectors.md T-dec). -/
def Obligations.DecodesTheWordsOfTheTable : Prop :=
  decode 0b00000000000000000000000000000000#32 = .ok .nop ∧
  decode 0b00000000000000000000000000000001#32 = .ok .init ∧
  decode 0b00000000000000000000000000000010#32 = .ok .compress ∧
  decode 0b00000000000000000000000000000011#32 = .ok (.finalize 0) ∧
  decode 0b00000000000000000000101000000011#32 = .ok (.finalize 10) ∧
  decode 0b00000000000000000011111100000011#32 = .ok (.finalize 63) ∧
  decode 0b00000000000000000000000000000100#32 = .error .reservedOpcode ∧
  decode 0b00000000000000000000000000010011#32 = .error .reservedField ∧
  decode 0b00000000000000000100000000000011#32 = .error .reservedField ∧
  decode 0b00000000000000000000000100000010#32 = .error .unexpectedTailLen

/-- R89: the printed text of each class of word (N in decimal, an Illegal word as eight hexadecimal digits), and that
assembling it gives the word back, for every legal and every illegal word. -/
def Obligations.DisassemblyAssemblesBack : Prop :=
  ∀ w : Word,
    (decode w = .ok .nop → disassembleText w = "nop".toList) ∧
    (decode w = .ok .init → disassembleText w = "init".toList) ∧
    (decode w = .ok .compress → disassembleText w = "compress".toList) ∧
    (∀ n, decode w = .ok (.finalize n) → disassembleText w = "finalize ".toList ++ Nat.toDigits 10 n) ∧
    (∀ why, decode w = .error why → ∃ digits : List Char, disassembleText w = "cmd 0x".toList ++ digits ∧
      digits.length = 8 ∧ ∀ k, k < 8 → digits[k]? = some (Nat.digitChar (w.toNat / 16 ^ (7 - k) % 16))) ∧
    assembleLine (disassembleText w) = .ok [.write 0x58 4 w.toNat]

/-- R88, its whole table: the expansion of every pseudo-instruction, what a round of `wait` does, and what the last line of
`getdout` binds. That each round is a step that is kept as a reading, and how NAME is held, are the model's choices (log
entries 15 and 16). -/
def Obligations.PseudoInstructionsExpandAsTabled : Prop :=
  expandLine .nop = [.write 0x58 4 0x00000000] ∧
  expandLine .init = [.write 0x58 4 0x00000001] ∧
  expandLine .compress = [.write 0x58 4 0x00000002] ∧
  (∀ n, n ≤ 63 → expandLine (.finalize n) = [.write 0x58 4 (0x00000003 ||| n <<< 8)]) ∧
  (∀ v, expandLine (.cmd v) = [.write 0x58 4 v]) ∧
  (∀ v, v < 2 ^ 64 → expandLine (.setlen v) = [.write 0x50 4 (v % 2 ^ 32), .write 0x54 4 (v / 2 ^ 32)]) ∧
  (∀ p, expandLine (.ldbuf p []) = []) ∧
  (∀ p b0 b1 b2 b3 rest, p % 4 = 0 → expandLine (.ldbuf p (b0 :: b1 :: b2 :: b3 :: rest)) =
    .write p 4 (bytesToWordLe b0 b1 b2 b3).toNat :: expandLine (.ldbuf (p + 4) rest)) ∧
  (∀ p b rest, p % 4 ≠ 0 ∨ (b :: rest).length < 4 → expandLine (.ldbuf p (b :: rest)) =
    .write p 1 b.toNat :: expandLine (.ldbuf (p + 1) rest)) ∧
  (∀ a b c d, expandLine (.setacc a b c d) = [.write 0x40 4 a, .write 0x44 4 b, .write 0x48 4 c, .write 0x4C 4 d]) ∧
  (∀ name, expandLine (.getacc name) =
    [.read 0x40 4 (name ++ ".a".toList), .read 0x44 4 (name ++ ".b".toList), .read 0x48 4 (name ++ ".c".toList),
     .read 0x4C 4 (name ++ ".d".toList)]) ∧
  (∀ name, expandLine (.getdout name) =
    [.read 0x7C 4 "t3".toList, .read 0x78 4 "t2".toList, .read 0x74 4 "t1".toList, .getdoutEnd name]) ∧
  (∀ (name : HostName) (s : State) (v3 v2 v1 v0 : Word), lookupRead "t3".toList s.reads = some v3 →
    lookupRead "t2".toList s.reads = some v2 → lookupRead "t1".toList s.reads = some v1 → hostRead 0x70 4 s = .ok v0 →
    hostOp (.getdoutEnd name) s =
      .next { s with reads := s.reads ++ [⟨"t0".toList, 4, v0⟩], joined := s.joined ++ [⟨name, v3 ++ v2 ++ v1 ++ v0⟩] }) ∧
  expandLine .wait = [.wait] ∧
  (∀ s : State, ∃ v, hostRead 0x5C 4 s = .ok v ∧
    (v.getLsbD 0 = true → hostOp .wait s =
      .next { s with reads := s.reads ++ [⟨"status".toList, 4, v⟩], program := .wait :: s.program }) ∧
    (v.getLsbD 0 = false → hostOp .wait s = .next { s with reads := s.reads ++ [⟨"status".toList, 4, v⟩] }))

/-! ## Codec, preprocessor, compression core -/

/-- R104. -/
def Obligations.CodecLaws : Prop :=
  (∀ v : Word, bytesToWordLe (wordToBytesLe v).1 (wordToBytesLe v).2.1 (wordToBytesLe v).2.2.1 (wordToBytesLe v).2.2.2 = v) ∧
  (∀ y0 y1 y2 y3 : Byte, wordToBytesLe (bytesToWordLe y0 y1 y2 y3) = (y0, y1, y2, y3)) ∧
  (∀ l : Len64, ∃ y0 y1 y2 y3 y4 y5 y6 y7 : Byte, lengthToBytesLe l = [y0, y1, y2, y3, y4, y5, y6, y7] ∧
    bytesToWordLe y0 y1 y2 y3 = l.setWidth 32 ∧ bytesToWordLe y4 y5 y6 y7 = (l >>> 32).setWidth 32)

/-- R106: the canonical digest bytes are the bytes of `format_digest` from its most significant byte to its least. -/
def Obligations.DigestBytesAreTheFormattedValueBigEndian : Prop :=
  ∀ w : Quad Word, digestBytes w = (List.range 16).map fun k => ((formatDigest w) >>> (8 * (15 - k))).setWidth 8

/-- R121, for every tail and every bit length. -/
def Obligations.PaddedBufferLayout : Prop :=
  ∀ (tail : List Byte) (bitLen : Len64),
    (∀ j, j < tail.length → (preprocess tail bitLen)[j]? = tail[j]?) ∧
    (preprocess tail bitLen)[tail.length]? = some 0x80#8 ∧
    (∀ j, tail.length < j → j ≤ tail.length + zeroCount tail.length → (preprocess tail bitLen)[j]? = some 0x00#8) ∧
    (∀ k, k < 8 → (preprocess tail bitLen)[tail.length + zeroCount tail.length + 1 + k]? =
      some ((bitLen >>> (8 * k)).setWidth 8)) ∧
    (preprocess tail bitLen).length = tail.length + zeroCount tail.length + 9

/-- R122: the zero-byte count is the unique one in 0..63 that fills the block up to byte 56, and its table by L mod 64. -/
def Obligations.ZeroByteCountByResidue : Prop :=
  ∀ len : Nat,
    zeroCount len ≤ 63 ∧ (len + 1 + zeroCount len) % 64 = 56 ∧
    (∀ z, z ≤ 63 → (len + 1 + z) % 64 = 56 → z = zeroCount len) ∧
    padCount len = (zeroCount len : Int) + 1 ∧
    (len % 64 ≤ 55 → zeroCount len = 55 - len % 64) ∧
    (56 ≤ len % 64 → zeroCount len = 119 - len % 64) ∧
    (∀ (tail : List Byte) (bitLen : Len64), tail.length = len →
      (preprocess tail bitLen).length = if len % 64 ≤ 55 then len - len % 64 + 64 else len - len % 64 + 128)

/-- R123: the padded length is the smallest multiple of 64 that is at least L + 9; one block up to L = 55, two from 56 to
63. -/
def Obligations.PaddedLengthIsTheSmallestMultiple : Prop :=
  ∀ (tail : List Byte) (bitLen : Len64),
    64 ∣ (preprocess tail bitLen).length ∧ tail.length + 9 ≤ (preprocess tail bitLen).length ∧
    (∀ m, 64 ∣ m → tail.length + 9 ≤ m → (preprocess tail bitLen).length ≤ m) ∧
    (tail.length ≤ 55 → (preprocess tail bitLen).length = 64) ∧
    (56 ≤ tail.length → tail.length ≤ 63 → (preprocess tail bitLen).length = 128)

/-- R143 to R146, bit by bit: F takes c or d by b, G takes b or c by d, H and I as written; and R152, which of them a step
uses. -/
def Obligations.RoundFunctionsBitByBit : Prop :=
  (∀ (i : Fin 64) (b c d : Word), fsel i b c d =
    [roundF b c d, roundG b c d, roundH b c d, roundI b c d].getD (i.val / 16) 0) ∧
  ∀ (b c d : Word) (k : Nat), k < 32 →
    (roundF b c d).getLsbD k = (if b.getLsbD k then c.getLsbD k else d.getLsbD k) ∧
    (roundG b c d).getLsbD k = (if d.getLsbD k then b.getLsbD k else c.getLsbD k) ∧
    (roundH b c d).getLsbD k = (b.getLsbD k ^^ c.getLsbD k ^^ d.getLsbD k) ∧
    (roundI b c d).getLsbD k = (c.getLsbD k ^^ (b.getLsbD k || !d.getLsbD k))

/-- R147: the message index as listed, and every message word used exactly once per round. -/
def Obligations.MessageIndexPermutesEachRound : Prop :=
  (List.finRange 64).map (fun i => (msgIndex i).val) =
    [0, 1, 2, 3, 4, 5, 6, 7, 8, 9, 10, 11, 12, 13, 14, 15] ++
    [1, 6, 11, 0, 5, 10, 15, 4, 9, 14, 3, 8, 13, 2, 7, 12] ++
    [5, 8, 11, 14, 1, 4, 7, 10, 13, 0, 3, 6, 9, 12, 15, 2] ++
    [0, 7, 14, 5, 12, 3, 10, 1, 8, 15, 6, 13, 4, 11, 2, 9] ∧
  ∀ (r : Fin 4) (k : Fin 16), ∃ i : Fin 64, (i.val / 16 = r.val ∧ msgIndex i = k) ∧
    ∀ j : Fin 64, j.val / 16 = r.val → msgIndex j = k → j = i

/-- R148, worked out for one step of each round (95_test_vectors.md T-step-1, 2, 3, 5), the last step (T-step-6) and the
overflow case (T-step-4). The whole block transform is `BlockRunsSixtyFourSteps`. -/
def Obligations.StepWorkedExamples : Prop :=
  roundStep 0 ⟨0x67452301#32, 0xEFCDAB89#32, 0x98BADCFE#32, 0x10325476#32⟩ (fun k => if k = 0 then 0x80#32 else 0) =
    ⟨0x10325476#32, 0xA5202774#32, 0xEFCDAB89#32, 0x98BADCFE#32⟩ ∧
  roundStep 16 ⟨0x67452301#32, 0xEFCDAB89#32, 0x98BADCFE#32, 0x10325476#32⟩ (fun _ => 0) =
    ⟨0x10325476#32, 0xAD47C905#32, 0xEFCDAB89#32, 0x98BADCFE#32⟩ ∧
  roundStep 32 ⟨0x67452301#32, 0xEFCDAB89#32, 0x98BADCFE#32, 0x10325476#32⟩ (fun _ => 0) =
    ⟨0x10325476#32, 0xD8159FD5#32, 0xEFCDAB89#32, 0x98BADCFE#32⟩ ∧
  roundStep 48 ⟨0x67452301#32, 0xEFCDAB89#32, 0x98BADCFE#32, 0x10325476#32⟩ (fun _ => 0) =
    ⟨0x10325476#32, 0xA93CDABD#32, 0xEFCDAB89#32, 0x98BADCFE#32⟩ ∧
  roundStep 63 ⟨0x67452301#32, 0xEFCDAB89#32, 0x98BADCFE#32, 0x10325476#32⟩ (fun _ => 0) =
    ⟨0x10325476#32, 0xB106F3F6#32, 0xEFCDAB89#32, 0x98BADCFE#32⟩ ∧
  roundStep 0 ⟨0xFFFFFFFF#32, 0xFFFFFFFF#32, 0xFFFFFFFF#32, 0xFFFFFFFF#32⟩ (fun _ => 0xFFFFFFFF#32) =
    ⟨0xFFFFFFFF#32, 0xB5523AEA#32, 0xFFFFFFFF#32, 0xFFFFFFFF#32⟩

/-- R151: the fault on a length that is no multiple of 64, which no command reaches; an empty buffer; and one block, then the
rest, each block from the previous block's result. -/
def Obligations.CompressRunsBlocksInOrder : Prop :=
  (∀ (i : Instr) (s : State), exec i s ≠ .fault .blockLengthViolation) ∧
  (∀ (bytes : List Byte) (acc : Quad Word), bytes.length % 64 ≠ 0 → compress bytes acc = .error .blockLengthViolation) ∧
  (∀ acc : Quad Word, compress [] acc = .ok acc) ∧
  (∀ (acc : Quad Word) (blk : Vector Byte 64) (rest : List Byte), rest.length % 64 = 0 →
    compress (blk.toList ++ rest) acc = compress rest (block acc blk))

/-- R140, "accumulator values carry forward across blocks": compressing two buffers one after the other is compressing
their concatenation. -/
def Obligations.CompressOfAConcatenation : Prop :=
  ∀ (x y : List Byte) (acc : Quad Word), x.length % 64 = 0 → y.length % 64 = 0 →
    ∃ w v, compress x acc = .ok w ∧ compress y w = .ok v ∧ compress (x ++ y) acc = .ok v

/-! ## The commands -/

/-- R174, with its completion and its frame: the whole next state. -/
def Obligations.NopOnlyCompletes : Prop :=
  decode 0x00000000#32 = .ok .nop ∧ ∀ s : State, exec .nop s = .next { s with busy := false }

/-- R175, with its completion and its frame: the whole next state. -/
def Obligations.InitLoadsTheInitialAccumulator : Prop :=
  decode 0x00000001#32 = .ok .init ∧
  ∀ s : State, exec .init s =
    .next { s with acc := ⟨0x67452301#32, 0xEFCDAB89#32, 0x98BADCFE#32, 0x10325476#32⟩, busy := false }

/-- R176: with all 64 bytes written, ACC takes the block transform and nothing else but BUSY changes; with one unwritten,
the model fault. -/
def Obligations.CompressFoldsTheBuffer : Prop :=
  decode 0x00000002#32 = .ok .compress ∧
  (∀ (s : State) (blk : Vector Byte 64), (∀ (j : Nat) (h : j < 64), s.buf.read j = some blk[j]) →
    exec .compress s = .next { s with acc := block s.acc blk, busy := false }) ∧
  (∀ (s : State) (j : Nat), j < 64 → s.buf.read j = none → exec .compress s = .fault .unwrittenRead)

/-- R177: with the tail's bytes written, DIGEST takes the core's result on the padded tail from ACC, DV is set, and nothing
else but BUSY changes; with one unwritten, the model fault. -/
def Obligations.FinalizeDigestsTheTail : Prop :=
  (∀ n, n ≤ 63 → decode (0x00000003#32 ||| (BitVec.ofNat 32 n <<< 8)) = .ok (.finalize n)) ∧
  (∀ (s : State) (tail : List Byte), tail.length ≤ 63 →
    (∀ (j : Nat) (h : j < tail.length), s.buf.read j = some tail[j]) →
    ∃ w, compress (preprocess tail s.bitLen) s.acc = .ok w ∧
      exec (.finalize tail.length) s =
        .next { s with digest := ⟨some w.a, some w.b, some w.c, some w.d⟩, dv := true, busy := false }) ∧
  (∀ (s : State) (n j : Nat), n ≤ 63 → j < n → s.buf.read j = none → exec (.finalize n) s = .fault .unwrittenRead)

/-- R173: an Illegal word's engine step reports ILLEGAL_COMMAND and changes nothing else. When that step is taken is
`StepRunsTheLatchedCommand`. -/
def Obligations.IllegalWordReportsTheError : Prop :=
  ∀ s : State,
    (4 ≤ s.cmdLatch.toNat % 16 ∨ s.cmdLatch.toNat / 2 ^ 4 % 16 ≠ 0 ∨ s.cmdLatch.toNat / 2 ^ 14 ≠ 0 ∨
      (s.cmdLatch.toNat / 2 ^ 8 % 64 ≠ 0 ∧ s.cmdLatch.toNat % 16 < 3)) →
    engineStep s = .next { s with busy := false, err := true, errCode := 0x1#4 }

/-- R178: what no command writes (the host's side whole: its program, what it has read and bound, the latencies), what only
some write, and that BUSY ends at 0; every byte of BUF reads as before. -/
def Obligations.CommandsLeaveTheRestUnchanged : Prop :=
  ∀ (i : Instr) (s t : State), exec i s = .next t →
    t.busy = false ∧ (∀ a, t.buf.read a = s.buf.read a) ∧ t.bitLen = s.bitLen ∧ t.cmdLatch = s.cmdLatch ∧
    t.err = s.err ∧ t.errCode = s.errCode ∧ t.fault = s.fault ∧ t.program = s.program ∧ t.reads = s.reads ∧
    t.joined = s.joined ∧ t.latencies = s.latencies ∧ t.issued = s.issued ∧ t.delay = s.delay ∧
    (i ≠ .init → i ≠ .compress → t.acc = s.acc) ∧
    ((∀ n, i ≠ .finalize n) → t.digest = s.digest ∧ t.dv = s.dv)

/-- R177's corner case: FINALIZE again, with no step between, writes the same digest. -/
def Obligations.FinalizeTwiceGivesTheSameDigest : Prop :=
  ∀ (n m : Nat) (s t : State), exec (.finalize n) s = .next t →
    exec (.finalize n) t = .next t ∧
    ∀ u, exec (.finalize m) t = .next u → exec (.finalize m) s = .next u

/-! ## The engine's step and the run -/

/-- R171: the engine's step, of a legal and of an Illegal word, is what `step` does where the engine's turn is next (which is
the model's choice of CMD_LATENCY, log entry 2); of a legal word it is the meaning of the latched command; and so for a word
placed by withFetchWord (log entry 7). -/
def Obligations.StepRunsTheLatchedCommand : Prop :=
  (∀ s : State, s.fault = none → s.busy = true → (s.delay = 0 ∨ s.program = []) → step s = engineStep s) ∧
  (∀ (s : State) (i : Instr), s.fault = none → s.busy = true → (s.delay = 0 ∨ s.program = []) →
    decode s.cmdLatch = .ok i → step s = exec i s) ∧
  (∀ (s : State) (w : Nat) (i : Instr), decodeTableWord 32 w = some i →
    step (s.withFetchWord 32 w) = exec i (s.withFetchWord 32 w))

/-- R61: otherwise the step is the host's next operation; and with no step enabled the state stays (log entry 3, the
model's own choice). -/
def Obligations.StepRunsTheNextHostOperation : Prop :=
  (∀ (s : State) (op : HostOp) (rest : List HostOp), s.fault = none → s.program = op :: rest →
    (s.busy = false ∨ s.delay ≠ 0) → step s = hostOp op { s with program := rest, delay := s.delay - 1 }) ∧
  (∀ s : State, s.fault = none → s.busy = false → s.program = [] → step s = .next s)

/-- R225: a recorded fault is never cleared, no step is enabled after it and its state is not final; a step that faults
records the fault and writes nothing else. That `step` then answers that same fault, and that `stepState` is what records one,
are the model's choices (log entry 13). -/
def Obligations.FaultsAreNeverCleared : Prop :=
  (∀ (k : Nat) (s : State) (f : Fault), s.fault = some f → step s = .fault f ∧ stepState^[k] s = s ∧ ¬ s.Final) ∧
  (∀ (s : State) (f : Fault), step s = .fault f → stepState s = { s with fault := some f }) ∧
  (∀ s : State, (hostReset s).fault = s.fault)

/-- R247: while a command is in flight and the host waits, the engine's turn comes after finitely many polls, with the
engine's state as it was. -/
def Obligations.EngineTurnComesWhileTheHostWaits : Prop :=
  ∀ (s : State) (rest : List HostOp), s.fault = none → s.busy = true → s.program = .wait :: rest →
    ∃ t, runFor s.delay s = .next t ∧ nextTurn t = .engine ∧
      { t with reads := s.reads, delay := s.delay } = s

/-! ## Who writes what: over every step -/

/-- R29. -/
def Obligations.BusyIsWrittenOnlyByIssueCompletionAndReset : Prop :=
  (∀ (v : Word) (s t : State), hostWrite 0x58 4 v s = .ok t → t.busy = true) ∧
  (∀ (s t : State), engineStep s = .next t → t.busy = false) ∧
  (∀ s : State, (hostReset s).busy = false) ∧
  (∀ s t : State, step s = .next t → s.busy ≠ t.busy →
    (nextTurn s = .engine ∧ t.busy = false) ∨
    (nextTurn s = .host ∧ ∃ rest, (s.program = .rst :: rest ∧ t.busy = false) ∨
      ∃ v, s.program = .write 0x58 4 v :: rest ∧ t.busy = true))

/-- R30. The last clause is over states that meet the invariant, which rules out codes no run produces. -/
def Obligations.ErrorFieldsFollowTheLastCommand : Prop :=
  (∀ (v : Word) (s t : State), hostWrite 0x58 4 v s = .ok t → t.busy = true ∧ t.err = false ∧ t.errCode = 0x0#4) ∧
  (∀ (why : IllegalWord) (s t : State), decode s.cmdLatch = .error why → engineStep s = .next t →
    t.err = true ∧ t.errCode = 0x1#4) ∧
  (∀ (i : Instr) (s t : State), s.err = false → s.errCode = 0x0#4 → exec i s = .next t →
    t.err = false ∧ t.errCode = 0x0#4) ∧
  (∀ s : State, (hostReset s).err = false ∧ (hostReset s).errCode = 0x0#4) ∧
  (∀ s t : State, s.Inv → step s = .next t → (t.err = false ∧ t.errCode = 0x0#4) ∨ (t.err = true ∧ t.errCode = 0x1#4))

/-- R31. -/
def Obligations.DvIsWrittenOnlyByFinalizeAndReset : Prop :=
  (∀ s : State, (hostReset s).dv = false) ∧
  (∀ (n : Nat) (s t : State), exec (.finalize n) s = .next t → t.dv = true) ∧
  (∀ s t : State, step s = .next t → s.dv ≠ t.dv →
    (nextTurn s = .engine ∧ t.dv = true ∧ ∃ n, decode s.cmdLatch = .ok (.finalize n)) ∨
    (nextTurn s = .host ∧ t.dv = false ∧ ∃ rest, s.program = .rst :: rest)) ∧
  (∀ s : State, s.dv = false → s.busy = false → ∀ off, 0x60 ≤ off → off < 0x80 → off % 4 = 0 →
    hostRead off 4 s = .error .unwrittenRead)

/-- R23, R25, R26 and R32: which step can change ACC, BUF, BITLEN and DIGEST. -/
def Obligations.RegistersChangeOnlyByTheirWriters : Prop :=
  ∀ s t : State, step s = .next t →
    (t.acc ≠ s.acc →
      (nextTurn s = .engine ∧ (decode s.cmdLatch = .ok .init ∨ decode s.cmdLatch = .ok .compress)) ∨
      (nextTurn s = .host ∧ ∃ rest, s.program = .rst :: rest ∨
        ∃ off v, s.program = .write off 4 v :: rest ∧ (off = 0x40 ∨ off = 0x44 ∨ off = 0x48 ∨ off = 0x4C))) ∧
    (t.buf ≠ s.buf → nextTurn s = .host ∧ ∃ rest, s.program = .rst :: rest ∨
      ∃ off n v, s.program = .write off n v :: rest ∧ off < 0x40) ∧
    (t.bitLen ≠ s.bitLen → nextTurn s = .host ∧ ∃ rest, s.program = .rst :: rest ∨
      ∃ off v, s.program = .write off 4 v :: rest ∧ (off = 0x50 ∨ off = 0x54)) ∧
    (t.digest ≠ s.digest →
      (nextTurn s = .engine ∧ ∃ n, decode s.cmdLatch = .ok (.finalize n)) ∨
      (nextTurn s = .host ∧ ∃ rest, s.program = .rst :: rest))

/-- R61, its third rule: between a CMD write and its completion, the only host steps without a fault are STATUS reads and
reset. -/
def Obligations.OnlyStatusReadsWhileBusy : Prop :=
  ∀ s t : State, step s = .next t → s.busy = true → nextTurn s = .host →
    ∃ rest, s.program = .wait :: rest ∨ s.program = .rst :: rest ∨ ∃ name, s.program = .read 0x5C 4 name :: rest

/-- The invariant at power-on. The value of CMDLATCH there is the model's choice (log entry 4); nothing here rests on it. -/
def Obligations.InvariantHoldsAtReset : Prop := State.reset.Inv

/-- The invariant is kept by every step, from every state that meets it: canonical BUF, legal error fields, no error while
busy, DIGEST written exactly when DV = 1. -/
def Obligations.EveryStepKeepsTheInvariant : Prop :=
  ∀ s t : State, s.Inv → step s = .next t → t.Inv

/-! ## Host accesses -/

/-- R28. -/
def Obligations.StatusRegisterLayout : Prop :=
  ∀ s : State,
    ∃ v, hostRead 0x5C 4 s = .ok v ∧
      v.getLsbD 0 = s.busy ∧ v.getLsbD 1 = s.err ∧ v.getLsbD 2 = s.dv ∧ v.getLsbD 3 = false ∧
      (v >>> 4).setWidth 4 = s.errCode ∧ v >>> 8 = 0#32 ∧
      v = (s.errCode ++ 0b0#1 ++ BitVec.ofBool s.dv ++ BitVec.ofBool s.err ++ BitVec.ofBool s.busy : BitVec 8).setWidth 32 ∧
      (∀ u, hostWrite 0x5C 4 u s = .error .accessDenied) ∧
      hostRead 0x5C 4 State.reset = .ok 0x00000000#32

/-- R170: a CMD write while BUSY = 0 latches the word, sets BUSY and clears the error fields, whatever the word; the last
three fields are the model's choice of CMD_LATENCY (log entry 2). While BUSY = 1 it is the model fault. -/
def Obligations.CmdWriteIssuesTheCommand : Prop :=
  ∀ (s : State) (v : Word),
    (s.busy = false → ∃ delay latencies issued, hostWrite 0x58 4 v s =
      .ok { s with cmdLatch := v, busy := true, err := false, errCode := 0x0#4,
                   delay := delay, latencies := latencies, issued := issued }) ∧
    (s.busy = true → hostWrite 0x58 4 v s = .error .hostAccessWhileBusy)

/-- R56 for BUF: a byte write and a word write store their bytes, least significant first, and leave every other byte and
every other field as it was. -/
def Obligations.BufWritesStoreTheirBytes : Prop :=
  ∀ (s : State) (off : Nat) (v : Word), s.busy = false → off < 0x40 →
    (∃ m, hostWrite off 1 v s = .ok { s with buf := m } ∧
      ∀ a, m.read a = if a = off then some (v.setWidth 8) else s.buf.read a) ∧
    (off % 4 = 0 → ∃ m, hostWrite off 4 v s = .ok { s with buf := m } ∧
      ∀ a, m.read a = if off ≤ a ∧ a < off + 4 then some ((v >>> (8 * (a - off))).setWidth 8) else s.buf.read a)

/-- R60: byte and word accesses to BUF see the same storage, also where a word is completed byte by byte from unwritten
bytes; word registers cannot be reached by byte accesses. -/
def Obligations.MixedWidthAccessesAgree : Prop :=
  (∀ (s : State) (k j : Nat), s.busy = false → k < 16 → j < 4 →
    (∀ w, hostRead (4 * k) 4 s = .ok w → hostRead (4 * k + j) 1 s = .ok ((w >>> (8 * j)) &&& 0xFF#32)) ∧
    (∀ v, ∃ t, hostWrite (4 * k) 4 v s = .ok t ∧ hostRead (4 * k) 4 t = .ok v ∧
      hostRead (4 * k + j) 1 t = .ok ((v >>> (8 * j)) &&& 0xFF#32)) ∧
    (∀ w v, hostRead (4 * k) 4 s = .ok w → ∃ t, hostWrite (4 * k + j) 1 v s = .ok t ∧
      hostRead (4 * k) 4 t = .ok ((w &&& ~~~(0xFF#32 <<< (8 * j))) ||| ((v &&& 0xFF#32) <<< (8 * j))))) ∧
  (∀ (s : State) (k : Nat) (y0 y1 y2 y3 : Byte), s.busy = false → k < 16 →
    ((hostRead (4 * k) 1 s = .ok (y0.setWidth 32) ∧ hostRead (4 * k + 1) 1 s = .ok (y1.setWidth 32) ∧
      hostRead (4 * k + 2) 1 s = .ok (y2.setWidth 32) ∧ hostRead (4 * k + 3) 1 s = .ok (y3.setWidth 32)) ↔
      hostRead (4 * k) 4 s = .ok (bytesToWordLe y0 y1 y2 y3))) ∧
  (∀ (s : State) (off : Nat) (v : Word), s.busy = false → off < 0x40 →
    ∃ t, hostWrite off 1 v s = .ok t ∧ hostRead off 1 t = .ok (v &&& 0xFF#32) ∧
      ∀ a, a ≠ off → hostRead a 1 t = hostRead a 1 s) ∧
  (∀ (s : State) (off : Nat) (v : Word), 0x40 ≤ off → off < 0x80 →
    hostRead off 1 s = .error .unsupportedWidth ∧ hostWrite off 1 v s = .error .unsupportedWidth)

/-- R23 and R26: ACC and BITLEN read back what was written, and a write changes only its own register. -/
def Obligations.AccAndBitLenReadBackWrites : Prop :=
  ∀ (s : State) (v : Word), s.busy = false →
    (hostWrite 0x40 4 v s = .ok { s with acc := { s.acc with a := v } } ∧ hostRead 0x40 4 s = .ok s.acc.a) ∧
    (hostWrite 0x44 4 v s = .ok { s with acc := { s.acc with b := v } } ∧ hostRead 0x44 4 s = .ok s.acc.b) ∧
    (hostWrite 0x48 4 v s = .ok { s with acc := { s.acc with c := v } } ∧ hostRead 0x48 4 s = .ok s.acc.c) ∧
    (hostWrite 0x4C 4 v s = .ok { s with acc := { s.acc with d := v } } ∧ hostRead 0x4C 4 s = .ok s.acc.d) ∧
    (∃ l, hostWrite 0x50 4 v s = .ok { s with bitLen := l } ∧ l.setWidth 32 = v ∧ l >>> 32 = s.bitLen >>> 32) ∧
    (∃ l, hostWrite 0x54 4 v s = .ok { s with bitLen := l } ∧ (l >>> 32).setWidth 32 = v ∧
      l.setWidth 32 = s.bitLen.setWidth 32) ∧
    hostRead 0x50 4 s = .ok (s.bitLen.setWidth 32) ∧ hostRead 0x54 4 s = .ok ((s.bitLen >>> 32).setWidth 32)

/-- R33. -/
def Obligations.DoutViewsTheFormattedDigest : Prop :=
  (∀ (s : State) (a b c d : Word), s.busy = false → s.dv = true → s.digest = ⟨some a, some b, some c, some d⟩ →
    hostRead 0x7C 4 s = .ok (bswap32 a) ∧ hostRead 0x78 4 s = .ok (bswap32 b) ∧
    hostRead 0x74 4 s = .ok (bswap32 c) ∧ hostRead 0x70 4 s = .ok (bswap32 d) ∧
    ∀ k, k < 4 → hostRead (0x70 + 4 * k) 4 s = .ok ((formatDigest ⟨a, b, c, d⟩ >>> (32 * k)).setWidth 32)) ∧
  (∀ (s : State) (k : Nat), k < 4 → s.busy = false → s.dv = false →
    hostRead (0x70 + 4 * k) 4 s = .error .unwrittenRead) ∧
  (∀ (s : State) (k : Nat) (v : Word), k < 4 → hostWrite (0x70 + 4 * k) 4 v s = .error .accessDenied)

/-- R32's reads: after a FINALIZE the DIGEST registers hold the core's words, before the byte swap. -/
def Obligations.DigestRegistersHoldTheFinalWords : Prop :=
  ∀ (n : Nat) (s t : State), exec (.finalize n) s = .next t →
    ∃ tail w, tail.length = n ∧ (∀ (j : Nat) (h : j < tail.length), s.buf.read j = some tail[j]) ∧
      compress (preprocess tail s.bitLen) s.acc = .ok w ∧
      hostRead 0x60 4 t = .ok w.a ∧ hostRead 0x64 4 t = .ok w.b ∧ hostRead 0x68 4 t = .ok w.c ∧
      hostRead 0x6C 4 t = .ok w.d ∧
      ∀ v, hostWrite 0x60 4 v t = .error .accessDenied

/-- R55, its checks in their order (R227): each clause has the earlier checks passed. -/
def Obligations.ReadReportsItsFirstFailingCheck : Prop :=
  ∀ (s : State) (off n : Nat),
    (0x80 ≤ off → hostRead off n s = .error .unmappedAccess) ∧
    (off < 0x40 → n ≠ 1 → n ≠ 4 → hostRead off n s = .error .unsupportedWidth) ∧
    (0x40 ≤ off → off < 0x80 → n ≠ 4 → hostRead off n s = .error .unsupportedWidth) ∧
    (off < 0x80 → n = 4 → off % 4 ≠ 0 → hostRead off n s = .error .misalignedAccess) ∧
    (off = 0x58 → n = 4 → hostRead off n s = .error .accessDenied) ∧
    (s.busy = true → off < 0x80 → off ≠ 0x58 → off ≠ 0x5C → (n = 1 ∧ off < 0x40) ∨ (n = 4 ∧ off % 4 = 0) →
      hostRead off n s = .error .hostAccessWhileBusy) ∧
    (s.busy = false → off < 0x40 → n = 1 → s.buf.read off = none → hostRead off n s = .error .unwrittenRead) ∧
    (s.busy = false → off < 0x40 → n = 4 → off % 4 = 0 → ∀ j, j < 4 → s.buf.read (off + j) = none →
      hostRead off n s = .error .unwrittenRead)

/-- R56, its checks in their order (R227): each clause has the earlier checks passed. -/
def Obligations.WriteReportsItsFirstFailingCheck : Prop :=
  ∀ (s : State) (off n : Nat) (v : Word),
    (0x80 ≤ off → hostWrite off n v s = .error .unmappedAccess) ∧
    (off < 0x40 → n ≠ 1 → n ≠ 4 → hostWrite off n v s = .error .unsupportedWidth) ∧
    (0x40 ≤ off → off < 0x80 → n ≠ 4 → hostWrite off n v s = .error .unsupportedWidth) ∧
    (off < 0x80 → n = 4 → off % 4 ≠ 0 → hostWrite off n v s = .error .misalignedAccess) ∧
    (0x5C ≤ off → off < 0x80 → n = 4 → off % 4 = 0 → hostWrite off n v s = .error .accessDenied) ∧
    (s.busy = true → off < 0x5C → (n = 1 ∧ off < 0x40) ∨ (n = 4 ∧ off % 4 = 0) →
      hostWrite off n v s = .error .hostAccessWhileBusy)

/-- R59: a read changes nothing but the host's own record of what it has read (log entry 15). -/
def Obligations.ReadsHaveNoSideEffect : Prop :=
  (∀ (off n : Nat) (name : HostName) (s t : State), hostOp (.read off n name) s = .next t →
    ∃ v, hostRead off n s = .ok v ∧ t = { s with reads := s.reads ++ [⟨name, n, v⟩] } ∧
      hostRead off n t = .ok v) ∧
  ∀ (name : HostName) (s t : State), hostOp (.getdoutEnd name) s = .next t →
    ∃ v js, hostRead 0x70 4 s = .ok v ∧ t = { s with reads := s.reads ++ [⟨['t', '0'], 4, v⟩], joined := s.joined ++ js } ∧
      hostRead 0x70 4 t = .ok v

/-! ## Reset -/

/-- R240. CMDLATCH, "unspecified", is left out of it (log entry 4). -/
def Obligations.ResetSetsEveryRegister : Prop :=
  ∀ s : State, ∃ t, hostOp .rst s = .next t ∧
    t.acc = ⟨0x67452301#32, 0xEFCDAB89#32, 0x98BADCFE#32, 0x10325476#32⟩ ∧
    (∀ a, t.buf.read a = none) ∧ t.bitLen = 0#64 ∧
    t.busy = false ∧ t.err = false ∧ t.dv = false ∧ t.errCode = 0x0#4 ∧
    t.digest = ⟨none, none, none, none⟩ ∧ t.fault = s.fault ∧
    hostRead 0x5C 4 t = .ok 0x00000000#32 ∧
    ∀ k, k < 4 → hostRead (0x70 + 4 * k) 4 t = .error .unwrittenRead

/-- R241: a reset before the engine's step discards the command; with the engine's step first, the command completes. -/
def Obligations.ResetDuringACommand : Prop :=
  ∀ (s : State) (rest : List HostOp), s.fault = none → s.busy = true → s.program = .rst :: rest →
    (s.delay ≠ 0 → step s = .next (hostReset { s with program := rest })) ∧
    (s.delay = 0 → step s = engineStep s)

/-! ## Several engines -/

/-- R66: a step of one instance is that instance's own step, with its fault recorded or answered as its own, and leaves every
other instance as it was; and steps of two instances commute. -/
def Obligations.InstancesShareNothing : Prop :=
  (∀ (k : Nat) (sys sys' : List State), stepInstance k sys = some (.next sys') →
    sys'.length = sys.length ∧ (∀ j, j ≠ k → sys'[j]? = sys[j]?) ∧
    ∃ s t, sys[k]? = some s ∧ step s = .next t ∧ sys'[k]? = some t) ∧
  (∀ (k : Nat) (sys : List State), (stepInstanceState k sys).length = sys.length ∧
    (stepInstanceState k sys)[k]? = sys[k]?.map stepState ∧
    ∀ j, j ≠ k → (stepInstanceState k sys)[j]? = sys[j]?) ∧
  (∀ (k : Nat) (sys : List State) (s : State), sys[k]? = some s →
    (∀ t, step s = .next t → stepInstance k sys = some (.next (stepInstanceState k sys))) ∧
    (∀ f, step s = .fault f → stepInstance k sys = some (.fault f))) ∧
  (∀ (j k : Nat) (sys : List State), j ≠ k →
    stepInstanceState j (stepInstanceState k sys) = stepInstanceState k (stepInstanceState j sys))

/-! ## The host's Digest State and its driver -/

/-- R210, properties 1 and 5: any split of a message into chunks gives the digest of the whole. -/
def Obligations.ChunkingDoesNotChangeTheDigest : Prop :=
  (∀ (s : DigestState) (x y : List Byte), consume (consume s x) y = consume s (x ++ y)) ∧
  (∀ chunks : List (List Byte), digest (chunks.foldl consume digestNew) = calculate chunks.flatten)

/-- R200 and R202: after any consume the buffer holds the remainder modulo 64; an empty consume changes nothing; digest
always gives a value. -/
def Obligations.ConsumeKeepsTheBufferShort : Prop :=
  (∀ (s : DigestState) (data : List Byte),
    (consume s data).buffer.length = (s.buffer.length + data.length) % 64 ∧
    (consume s data).totalLength = s.totalLength + BitVec.ofNat 64 data.length) ∧
  (∀ s : DigestState, s.buffer.length ≤ 63 → consume s [] = s) ∧
  (∀ s : DigestState, ∃ v, digest s = .ok v)

/-- R208: an engine that holds a Digest State computes its digest with one FINALIZE, read from DOUT. -/
def Obligations.FinalizeComputesTheStreamingDigest : Prop :=
  ∀ (d : DigestState) (s : State), d.buffer.length ≤ 63 → s.acc = d.acc → s.bitLen = d.totalLength * 8#64 →
    (∀ (j : Nat) (h : j < d.buffer.length), s.buf.read j = some d.buffer[j]) →
    ∃ t v3 v2 v1 v0, exec (.finalize d.buffer.length) s = .next t ∧
      hostRead 0x7C 4 t = .ok v3 ∧ hostRead 0x78 4 t = .ok v2 ∧ hostRead 0x74 4 t = .ok v1 ∧ hostRead 0x70 4 t = .ok v0 ∧
      digest d = .ok (v3 ++ v2 ++ v1 ++ v0 : BitVec 128)

/-- R88: `ldbuf` stores its bytes from its offset up, and leaves every other byte of BUF and every other field as it was, but
for the host's program, which is run, and `delay`, which goes down by one for each host operation (the model's choice, log
entry 2). -/
def Obligations.LdbufStoresItsBytes : Prop :=
  ∀ (bytes : List Byte) (p : Nat) (s : State) (rest : List HostOp), p + bytes.length ≤ 64 → s.fault = none →
    s.busy = false → s.program = expandLdbuf p bytes ++ rest →
    ∃ m, Reaches s { s with buf := m, program := rest, delay := s.delay - (expandLdbuf p bytes).length } ∧
      ∀ a, m.read a = if p ≤ a then (if a < p + bytes.length then bytes[a - p]? else s.buf.read a) else s.buf.read a

/-- R209 for R208: the driver's `digest` sequence, on an engine in any state that is not busy and whatever the latencies (log
entry 2), binds NAME to the digest of R203 (log entry 15) and leaves the Digest State in the engine; and so does the sequence
without its first two steps, on an engine that holds the Digest State already (log entry 21). -/
def Obligations.DriverReadsTheDigest : Prop :=
  ∀ (name : HostName) (d : DigestState) (s : State) (rest : List HostOp), d.buffer.length ≤ 63 → s.fault = none →
    s.busy = false →
    (s.program = digestProgram name d ++ rest ∨
      (s.program = heldDigestProgram name d ++ rest ∧ s.acc = d.acc ∧
        ∀ (j : Nat) (h : j < d.buffer.length), s.buf.read j = some d.buffer[j])) →
    ∃ t v, Reaches s t ∧ digest d = .ok v ∧ getdoutValue name t.joined = some v ∧
      t.program = rest ∧ t.busy = false ∧ t.fault = none ∧
      t.acc = d.acc ∧ t.bitLen = bitLength d ∧ ∀ (j : Nat) (h : j < d.buffer.length), t.buf.read j = some d.buffer[j]

/-- R209 for R207: the driver's `consume` sequence reads back the accumulator of R202, whether or not its first step is left
out on an engine that holds the accumulator already, whatever the latencies (log entry 2); the state built from it (step 5) is
the state of R202; and where the host leaves the remaining bytes in BUF, they stand there (the form of the sequence is log entry 21). -/
def Obligations.DriverReadsTheConsumedAccumulator : Prop :=
  ∀ (form : ConsumeForm) (d : DigestState) (data : List Byte) (s : State) (rest : List HostOp), s.fault = none →
    s.busy = false → s.program = consumeProgram form d data ++ rest → (form.accHeld = true → s.acc = d.acc) →
    ∃ t acc, Reaches s t ∧ getaccValue accName t.reads = some acc ∧ consumedState d data acc = consume d data ∧
      t.acc = acc ∧ t.program = rest ∧ t.busy = false ∧ t.fault = none ∧
      (form.leaveTail = true → ∀ (j : Nat) (h : j < (consume d data).buffer.length),
        t.buf.read j = some (consume d data).buffer[j])

/-! ## The block transform, pinned by its own definition and by the spec's digests -/

/-- The tables K and S of R141 and R142 (the spec's own general knowledge, log entry 10), and `rotl` of R10 as the rotation it
names. -/
def Obligations.ConstantTablesAndRotation : Prop :=
  (List.finRange 64).map addConst =
    [0xD76AA478#32, 0xE8C7B756#32, 0x242070DB#32, 0xC1BDCEEE#32, 0xF57C0FAF#32, 0x4787C62A#32, 0xA8304613#32, 0xFD469501#32,
     0x698098D8#32, 0x8B44F7AF#32, 0xFFFF5BB1#32, 0x895CD7BE#32, 0x6B901122#32, 0xFD987193#32, 0xA679438E#32, 0x49B40821#32] ++
    [0xF61E2562#32, 0xC040B340#32, 0x265E5A51#32, 0xE9B6C7AA#32, 0xD62F105D#32, 0x02441453#32, 0xD8A1E681#32, 0xE7D3FBC8#32,
     0x21E1CDE6#32, 0xC33707D6#32, 0xF4D50D87#32, 0x455A14ED#32, 0xA9E3E905#32, 0xFCEFA3F8#32, 0x676F02D9#32, 0x8D2A4C8A#32] ++
    [0xFFFA3942#32, 0x8771F681#32, 0x6D9D6122#32, 0xFDE5380C#32, 0xA4BEEA44#32, 0x4BDECFA9#32, 0xF6BB4B60#32, 0xBEBFBC70#32,
     0x289B7EC6#32, 0xEAA127FA#32, 0xD4EF3085#32, 0x04881D05#32, 0xD9D4D039#32, 0xE6DB99E5#32, 0x1FA27CF8#32, 0xC4AC5665#32] ++
    [0xF4292244#32, 0x432AFF97#32, 0xAB9423A7#32, 0xFC93A039#32, 0x655B59C3#32, 0x8F0CCC92#32, 0xFFEFF47D#32, 0x85845DD1#32,
     0x6FA87E4F#32, 0xFE2CE6E0#32, 0xA3014314#32, 0x4E0811A1#32, 0xF7537E82#32, 0xBD3AF235#32, 0x2AD7D2BB#32, 0xEB86D391#32] ∧
  (List.finRange 64).map rotAmount =
    [7, 12, 17, 22, 7, 12, 17, 22, 7, 12, 17, 22, 7, 12, 17, 22] ++ [5, 9, 14, 20, 5, 9, 14, 20, 5, 9, 14, 20, 5, 9, 14, 20] ++
    [4, 11, 16, 23, 4, 11, 16, 23, 4, 11, 16, 23, 4, 11, 16, 23] ++ [6, 10, 15, 21, 6, 10, 15, 21, 6, 10, 15, 21, 6, 10, 15, 21] ∧
  ∀ (x : Word) (k : Nat), k ≤ 31 → rotl x k = x.rotateLeft k

/-- R148 to R150: the sixteen little-endian message words of a block; the 64 steps in order, from the accumulator, each step
written out; and the feed-forward to the accumulator the block started from. -/
def Obligations.BlockRunsSixtyFourSteps : Prop :=
  ∀ (acc : Quad Word) (blk : Vector Byte 64), ∃ (m : Fin 16 → Word) (w : Nat → Quad Word),
    (∀ k : Fin 16, (m k).toNat = blk[4 * k.val].toNat + 2 ^ 8 * blk[4 * k.val + 1].toNat +
      2 ^ 16 * blk[4 * k.val + 2].toNat + 2 ^ 24 * blk[4 * k.val + 3].toNat) ∧
    w 0 = acc ∧
    (∀ i : Fin 64, w (i.val + 1) =
      ⟨(w i.val).d,
       (w i.val).b + (fsel i (w i.val).b (w i.val).c (w i.val).d + (w i.val).a + m (msgIndex i) + addConst i).rotateLeft
         (rotAmount i),
       (w i.val).b, (w i.val).c⟩) ∧
    block acc blk = ⟨acc.a + (w 64).a, acc.b + (w 64).b, acc.c + (w 64).c, acc.d + (w 64).d⟩

/-- The digests the source itself gives (95_test_vectors.md V1, V2, V3), through R204. -/
def Obligations.SourceDigests : Prop :=
  calculate [] = .ok 0xd41d8cd98f00b204e9800998ecf8427e#128 ∧
  calculate ("helloworld".toList.map fun c => BitVec.ofNat 8 c.toNat) = .ok 0xfc5e038d38a57032085441e7fe7010b0#128 ∧
  calculate ("Lorem ipsum dolor sit amet, consectetur adipiscing odio.".toList.map fun c => BitVec.ofNat 8 c.toNat) =
    .ok 0x2251013dde7bffaa1780cf66fbbaf4bb#128
end

