-- ==== Sys2Proof/Laws/Codec.lean ====
section
/-!
SUPPORT. The codec and the command's fields in terms of single bits and of numbers: what bit `i` of a converted value is,
and a field of a word by division and remainder.
-/
namespace Sys2Proof.Machine

/-! ## Bits -/

theorem byteOf_getLsbD (v : Word) (k i : Nat) (hi : i < 8) : (byteOf v k).getLsbD i = v.getLsbD (8 * k + i) := by
  simp [byteOf, hi]

theorem bytesToWordLe_getLsbD (y0 y1 y2 y3 : Byte) (i : Nat) (hi : i < 32) :
    (bytesToWordLe y0 y1 y2 y3).getLsbD i =
      if i < 8 then y0.getLsbD i else if i < 16 then y1.getLsbD (i - 8) else if i < 24 then y2.getLsbD (i - 16)
      else y3.getLsbD (i - 24) := by
  simp only [bytesToWordLe, BitVec.getLsbD_or, BitVec.getLsbD_shiftLeft, BitVec.getLsbD_setWidth]
  have h0 : ∀ (y : Byte) (j : Nat), 8 ≤ j → y.getLsbD j = false := fun y j h => BitVec.getLsbD_of_ge y j h
  by_cases h1 : i < 8
  · simp [h1, hi, show i < 16 by omega, show i < 24 by omega]
  by_cases h2 : i < 16
  · simp [h1, hi, h2, show i < 24 by omega, h0 y0 i (by omega)]; intro; omega
  by_cases h3 : i < 24
  · simp [h1, hi, h2, h3, h0 y0 i (by omega), h0 y1 (i - 8) (by omega)]; intro; omega
  · simp [h1, hi, h2, h3, h0 y0 i (by omega), h0 y1 (i - 8) (by omega), h0 y2 (i - 16) (by omega)]; intro; omega

theorem joinWords_getLsbD (hi lo : Word) (i : Nat) :
    (joinWords hi lo).getLsbD i = if i < 32 then lo.getLsbD i else hi.getLsbD (i - 32) := by
  have h : (joinWords hi lo).getLsbD i = (hi ++ lo).getLsbD i := rfl
  rw [h, BitVec.getLsbD_append]

@[simp] theorem lowWord_joinWords (hi lo : Word) : lowWord (joinWords hi lo) = lo := by
  apply BitVec.eq_of_getLsbD_eq
  intro i h
  rw [lowWord, BitVec.getLsbD_extractLsb', joinWords_getLsbD]
  simp [h]

@[simp] theorem highWord_joinWords (hi lo : Word) : highWord (joinWords hi lo) = hi := by
  apply BitVec.eq_of_getLsbD_eq
  intro i h
  rw [highWord, BitVec.getLsbD_extractLsb', joinWords_getLsbD]
  simp [h]

@[simp] theorem joinWords_high_low (l : Len64) : joinWords (highWord l) (lowWord l) = l := by
  apply BitVec.eq_of_getLsbD_eq
  intro i h
  rw [joinWords_getLsbD]
  split
  · next h' => simp [lowWord, h']
  · next h' => simp [highWord, show i - 32 < 32 by omega, show 32 + (i - 32) = i by omega]

/-- The bits of a formatted digest, word by word from the least significant. -/
theorem formatDigest_getLsbD (w : Quad Word) (i : Nat) :
    (formatDigest w).getLsbD i =
      if i < 32 then (bswap32 w.d).getLsbD i else if i < 64 then (bswap32 w.c).getLsbD (i - 32)
      else if i < 96 then (bswap32 w.b).getLsbD (i - 64) else (bswap32 w.a).getLsbD (i - 96) := by
  have h : (formatDigest w).getLsbD i = (bswap32 w.a ++ bswap32 w.b ++ bswap32 w.c ++ bswap32 w.d).getLsbD i := rfl
  rw [h]
  simp only [BitVec.getLsbD_append]
  split_ifs <;> first
    | rfl
    | omega

/-! ## Fields of a command word, and the number a command's word is -/

theorem opField_eq_iff (w : Word) (v : BitVec 4) : opField w = v ↔ w.toNat % 16 = v.toNat := by
  rw [← BitVec.toNat_inj]; simp [opField, BitVec.extractLsb'_toNat]

theorem opField_lt_three_iff (w : Word) : opField w < 0x3#4 ↔ w.toNat % 16 < 3 := by
  rw [BitVec.lt_def]; simp [opField, BitVec.extractLsb'_toNat]

theorem rsv0Field_eq_zero_iff (w : Word) : rsv0Field w = 0 ↔ w.toNat / 2 ^ 4 % 16 = 0 := by
  rw [← BitVec.toNat_inj]; simp [rsv0Field, BitVec.extractLsb'_toNat, Nat.shiftRight_eq_div_pow]

theorem rsv1Field_eq_zero_iff (w : Word) : rsv1Field w = 0 ↔ w.toNat / 2 ^ 14 = 0 := by
  have := w.isLt
  rw [← BitVec.toNat_inj]; simp [rsv1Field, BitVec.extractLsb'_toNat, Nat.shiftRight_eq_div_pow]; omega

theorem tailLenField_toNat (w : Word) : (tailLenField w).toNat = w.toNat / 2 ^ 8 % 64 := by
  simp [tailLenField, BitVec.extractLsb'_toNat, Nat.shiftRight_eq_div_pow]

theorem tailLenField_eq_zero_iff (w : Word) : tailLenField w = 0 ↔ w.toNat / 2 ^ 8 % 64 = 0 := by
  rw [← BitVec.toNat_inj, tailLenField_toNat]; simp

/-- A command's word as a number: TAILLEN · 256 + OP. -/
theorem cmdWord_toNat (n : Nat) (hn : n ≤ 63) (op : BitVec 4) :
    (cmdWord (BitVec.ofNat 6 n) op).toNat = n * 256 + op.toNat := by
  have hop := op.isLt
  simp only [cmdWord, BitVec.toNat_append, BitVec.toNat_ofNat, Nat.zero_mod, Nat.zero_shiftLeft, Nat.zero_or, Nat.or_zero]
  rw [Nat.mod_eq_of_lt (by omega : n < 2 ^ 6), Nat.shiftLeft_eq, Nat.shiftLeft_eq, ← Nat.shiftLeft_eq _ 4,
    ← Nat.shiftLeft_add_eq_or_of_lt hop, Nat.shiftLeft_eq]
  omega

end Sys2Proof.Machine
end

