-- ==== Sys2Proof/Laws/Memory.lean ====
section
/-!
SUPPORT. Byte storage: what a read gives after a write, that a write keeps the canonical form, that equal storage is equal
data, and what the wider reads are in terms of single bytes.
-/
namespace Sys2Proof.Machine

@[simp] theorem Memory.read_nil (a : Nat) : Memory.read [] a = none := rfl

theorem Memory.read_cons (x : Nat) (v : Byte) (m : Memory) (a : Nat) :
    Memory.read ((x, v) :: m) a = if x = a then some v else Memory.read m a := rfl

/-- Every listed offset is above `x`. -/
theorem Memory.wf_cons_cons {x y : Nat} {v w : Byte} {m : Memory} :
    Memory.wf ((x, v) :: (y, w) :: m) = true ↔ x < y ∧ Memory.wf ((y, w) :: m) = true := by
  simp [Memory.wf]

theorem Memory.wf_tail {x : Nat} {v : Byte} {m : Memory} (h : Memory.wf ((x, v) :: m) = true) : Memory.wf m = true := by
  cases m with
  | nil => rfl
  | cons c m => obtain ⟨y, w⟩ := c; exact (Memory.wf_cons_cons.mp h).2

/-- The first offset of canonical storage is the least, and it lies in BUF. -/
theorem Memory.wf_head {x : Nat} {v : Byte} {m : Memory} (h : Memory.wf ((x, v) :: m) = true) :
    x < 0x40 ∧ ∀ a, a ≤ x → Memory.read m a = none := by
  induction m generalizing x v with
  | nil => exact ⟨by simpa [Memory.wf] using h, fun _ _ => rfl⟩
  | cons c m ih =>
    obtain ⟨y, w⟩ := c
    obtain ⟨hxy, hy⟩ := Memory.wf_cons_cons.mp h
    obtain ⟨hlt, hnone⟩ := ih hy
    refine ⟨by omega, fun a ha => ?_⟩
    rw [Memory.read_cons, if_neg (by omega)]
    exact hnone a (by omega)

/-- A written byte reads back. -/
theorem Memory.read_write_same (m : Memory) (a : Nat) (b : Byte) : (m.write a b).read a = some b := by
  induction m with
  | nil => simp [Memory.write, Memory.read]
  | cons c m ih =>
    obtain ⟨x, v⟩ := c
    simp only [Memory.write]
    split
    · simp [Memory.read]
    · split
      · simp [Memory.read]
      · rw [Memory.read_cons, if_neg (by omega)]; exact ih

/-- A write leaves every other byte alone. -/
theorem Memory.read_write_other (m : Memory) {a a' : Nat} (b : Byte) (h : a' ≠ a) : (m.write a b).read a' = m.read a' := by
  induction m with
  | nil => simp [Memory.write, Memory.read, Ne.symm h]
  | cons c m ih =>
    obtain ⟨x, v⟩ := c
    simp only [Memory.write]
    split
    · rw [Memory.read_cons, if_neg (Ne.symm h)]
    · split
      · next hx => rw [Memory.read_cons, Memory.read_cons, if_neg (Ne.symm h), if_neg (hx ▸ Ne.symm h)]
      · rw [Memory.read_cons, Memory.read_cons, ih]

/-- A read after one write. -/
theorem Memory.read_write (m : Memory) (a a' : Nat) (b : Byte) :
    (m.write a b).read a' = if a' = a then some b else m.read a' := by
  split
  · next h => rw [h, Memory.read_write_same]
  · next h => exact Memory.read_write_other m b h

theorem Memory.write_cons_wf {x a : Nat} {v b : Byte} {m : Memory} (h : Memory.wf ((x, v) :: m) = true) (hxa : x < a)
    (ha : a < 0x40) : Memory.wf ((x, v) :: Memory.write m a b) = true := by
  induction m generalizing x v with
  | nil => simp [Memory.write, Memory.wf]; omega
  | cons c m ih =>
    obtain ⟨y, w⟩ := c
    obtain ⟨hxy, hy⟩ := Memory.wf_cons_cons.mp h
    simp only [Memory.write]
    split
    · next hay => exact Memory.wf_cons_cons.mpr ⟨hxa, Memory.wf_cons_cons.mpr ⟨hay, hy⟩⟩
    · split
      · next hay =>
        subst hay
        cases m with
        | nil => exact Memory.wf_cons_cons.mpr ⟨hxy, by simpa [Memory.wf] using ha⟩
        | cons c m =>
          obtain ⟨z, u⟩ := c
          exact Memory.wf_cons_cons.mpr ⟨hxy, Memory.wf_cons_cons.mpr (Memory.wf_cons_cons.mp hy)⟩
      · exact Memory.wf_cons_cons.mpr ⟨hxy, ih hy (by omega)⟩

/-- A byte write inside BUF keeps the canonical form. -/
theorem Memory.write_wf {m : Memory} {a : Nat} (b : Byte) (h : m.wf = true) (ha : a < 0x40) : (m.write a b).wf = true := by
  cases m with
  | nil => simp [Memory.write, Memory.wf]; omega
  | cons c m =>
    obtain ⟨x, v⟩ := c
    simp only [Memory.write]
    split
    · next hax => exact Memory.wf_cons_cons.mpr ⟨hax, h⟩
    · split
      · next hax =>
        subst hax
        cases m with
        | nil => simpa [Memory.wf] using ha
        | cons c m =>
          obtain ⟨y, w⟩ := c
          exact Memory.wf_cons_cons.mpr (Memory.wf_cons_cons.mp h)
      · exact Memory.write_cons_wf h (by omega) ha

/-- A word write inside BUF keeps the canonical form. -/
theorem Memory.writeWord_wf {m : Memory} {off : Nat} (v : Word) (h : m.wf = true) (ha : off + 3 < 0x40) :
    (m.writeWord off v).wf = true :=
  Memory.write_wf _ (Memory.write_wf _ (Memory.write_wf _ (Memory.write_wf _ h (by omega)) (by omega)) (by omega)) ha

/-- The byte at an offset after a word write: byte `k` of the word at `off + k`, every other byte as before. -/
theorem Memory.read_writeWord (m : Memory) (off : Nat) (v : Word) (a : Nat) :
    (m.writeWord off v).read a = if off ≤ a ∧ a < off + 4 then some (byteOf v (a - off)) else m.read a := by
  simp only [Memory.writeWord, wordToBytesLe, Memory.read_write]
  by_cases h3 : a = off + 3
  · subst h3; simp
  by_cases h2 : a = off + 2
  · subst h2; simp
  by_cases h1 : a = off + 1
  · subst h1; simp
  by_cases h0 : a = off
  · subst h0; simp
  rw [if_neg h3, if_neg h2, if_neg h1, if_neg h0, if_neg (by omega)]

/-- Canonical storage with the same bytes is the same data. -/
theorem Memory.eq_of_read_eq {m m' : Memory} (h : m.wf = true) (h' : m'.wf = true) (heq : ∀ a, m.read a = m'.read a) :
    m = m' := by
  induction m generalizing m' with
  | nil =>
    cases m' with
    | nil => rfl
    | cons c m' => obtain ⟨y, w⟩ := c; have := heq y; simp [Memory.read] at this
  | cons c m ih =>
    obtain ⟨x, v⟩ := c
    cases m' with
    | nil => have := heq x; simp [Memory.read] at this
    | cons c m' =>
      obtain ⟨y, w⟩ := c
      have hx := Memory.wf_head h
      have hy := Memory.wf_head h'
      have hxy : x = y := by
        have h1 := heq x
        have h2 := heq y
        rw [Memory.read_cons, Memory.read_cons, if_pos rfl] at h1
        rw [Memory.read_cons, Memory.read_cons, if_pos (rfl : y = y)] at h2
        by_contra hne
        rw [if_neg (Ne.symm hne)] at h1
        rw [if_neg hne] at h2
        rcases Nat.lt_or_gt_of_ne hne with hlt | hlt
        · simp [hy.2 x (by omega)] at h1
        · simp [hx.2 y (by omega)] at h2
      subst hxy
      have hvw : v = w := by have := heq x; simpa [Memory.read] using this
      subst hvw
      congr 1
      refine ih (Memory.wf_tail h) (Memory.wf_tail h') fun a => ?_
      have := heq a
      rw [Memory.read_cons, Memory.read_cons] at this
      by_cases hxa : x = a
      · subst hxa; rw [hx.2 x le_rfl, hy.2 x le_rfl]
      · rwa [if_neg hxa, if_neg hxa] at this

/-- A run of bytes is read exactly where each of them is written. -/
theorem Memory.readRun_eq_some_iff (m : Memory) (start n : Nat) (bs : List Byte) :
    m.readRun start n = some bs ↔ bs.length = n ∧ ∀ j (h : j < bs.length), m.read (start + j) = some bs[j] := by
  induction n generalizing start bs with
  | zero =>
    constructor
    · intro h; simp only [Memory.readRun, Option.some.injEq] at h; subst h; simp
    · rintro ⟨h, -⟩; rw [List.length_eq_zero_iff.mp h]; rfl
  | succ n ih =>
    simp only [Memory.readRun]
    constructor
    · intro h
      split at h
      · next b bs' hb hbs =>
        obtain rfl : b :: bs' = bs := by simpa using h
        obtain ⟨hlen, hall⟩ := (ih _ _).mp hbs
        refine ⟨by simp [hlen], fun j hj => ?_⟩
        cases j with
        | zero => simpa using hb
        | succ j =>
          have := hall j (by simpa using hj)
          rw [show start + (j + 1) = start + 1 + j by omega]
          simpa using this
      · simp at h
    · rintro ⟨hlen, hall⟩
      cases bs with
      | nil => simp at hlen
      | cons b bs =>
        have hb := hall 0 (by simp)
        have hbs : m.readRun (start + 1) n = some bs := by
          refine (ih _ _).mpr ⟨by simpa using hlen, fun j hj => ?_⟩
          have := hall (j + 1) (by simpa using hj)
          rw [show start + 1 + j = start + (j + 1) by omega]
          simpa using this
        have hb' : m.read start = some b := by simpa using hb
        simp [hb', hbs]

/-- A run of bytes is not read exactly where one of them is unwritten. -/
theorem Memory.readRun_eq_none_iff (m : Memory) (start n : Nat) :
    m.readRun start n = none ↔ ∃ j, j < n ∧ m.read (start + j) = none := by
  induction n generalizing start with
  | zero => simp [Memory.readRun]
  | succ n ih =>
    simp only [Memory.readRun]
    constructor
    · intro h
      by_cases h0 : m.read start = none
      · exact ⟨0, by omega, by simpa using h0⟩
      · obtain ⟨b, hb⟩ := Option.ne_none_iff_exists'.mp h0
        have hrun : m.readRun (start + 1) n = none := by
          cases hr : m.readRun (start + 1) n with
          | none => rfl
          | some bs => simp [hb, hr] at h
        obtain ⟨j, hj, hnone⟩ := (ih _).mp hrun
        exact ⟨j + 1, by omega, by rw [show start + (j + 1) = start + 1 + j by omega]; exact hnone⟩
    · rintro ⟨j, hj, hnone⟩
      cases j with
      | zero => simp at hnone; simp [hnone]
      | succ j =>
        have hrun : m.readRun (start + 1) n = none :=
          (ih _).mpr ⟨j, by omega, by rw [show start + 1 + j = start + (j + 1) by omega]; exact hnone⟩
        cases m.read start <;> simp [hrun]

end Sys2Proof.Machine
end

