-- ==== Sys2Proof/Laws/Operands.lean ====
section
/-!
SUPPORT. The pure functions a command is made of, said once: when a byte sequence is a block, when `compress` faults, how
long a padded buffer is, and when a command has its operands.
-/
namespace Sys2Proof.Machine

/-! ## Blocks and compress -/

theorem blockOfList?_eq_some_iff (bytes : List Byte) (blk : Block) : blockOfList? bytes = some blk ↔ blk.toList = bytes := by
  unfold blockOfList?
  split
  · next h =>
    rw [Option.some.injEq]
    constructor
    · rintro rfl; simp
    · intro h'; apply Vector.toList_inj.mp; simp [h']
  · next h =>
    constructor
    · intro h'; simp at h'
    · rintro rfl; simp at h

theorem blockOfList?_isSome (bytes : List Byte) (h : bytes.length = 64) : ∃ blk, blockOfList? bytes = some blk :=
  ⟨⟨bytes.toArray, by simpa using h⟩, by simp [blockOfList?, h]⟩

theorem blockOfList?_eq_none_iff (bytes : List Byte) : blockOfList? bytes = none ↔ bytes.length ≠ 64 := by
  unfold blockOfList?; split <;> simp_all

/-- The loop runs to its end on a sequence that holds its blocks. -/
theorem compressBlocks_ok (n : Nat) (bytes : List Byte) (acc : Quad Word) (h : 64 * n ≤ bytes.length) :
    ∃ w, compressBlocks n bytes acc = .ok w := by
  induction n generalizing bytes acc with
  | zero => exact ⟨acc, rfl⟩
  | succ n ih =>
    obtain ⟨blk, hblk⟩ := blockOfList?_isSome (bytes.take 64) (by rw [List.length_take]; omega)
    simp only [compressBlocks, hblk]
    exact ih _ _ (by rw [List.length_drop]; omega)

/-- `compress` gives an accumulator on every whole number of blocks. -/
theorem compress_ok (bytes : List Byte) (acc : Quad Word) (h : bytes.length % 64 = 0) : ∃ w, compress bytes acc = .ok w := by
  unfold compress
  rw [if_neg (by omega)]
  exact compressBlocks_ok _ _ _ (by omega)

/-- `compress` of one block is the block transform. -/
theorem compress_block (acc : Quad Word) (blk : Block) : compress blk.toList acc = .ok (block acc blk) := by
  have hlen : blk.toList.length = 64 := by simp
  have htake : blockOfList? (blk.toList.take 64) = some blk := by
    rw [List.take_of_length_le (by omega)]; exact (blockOfList?_eq_some_iff _ _).mpr rfl
  unfold compress
  rw [if_neg (by omega), hlen]
  simp only [Nat.reduceDiv, compressBlocks, htake]

/-! ## Padding -/

theorem lengthToBytesLe_length (l : Len64) : (lengthToBytesLe l).length = 8 := rfl

/-- The zero-byte count fills the last block up to the length field. -/
theorem zeroCount_spec (len : Nat) : zeroCount len ≤ 63 ∧ (len + 1 + zeroCount len) % 64 = 56 := by
  unfold zeroCount padCount
  simp only
  split <;> omega

theorem preprocess_length_eq (tail : List Byte) (bitLen : Len64) :
    (preprocess tail bitLen).length = tail.length + 1 + zeroCount tail.length + 8 := by
  simp [preprocess, lengthToBytesLe_length]; omega

/-- A padded buffer is a whole number of blocks. -/
theorem preprocess_length_mod (tail : List Byte) (bitLen : Len64) : (preprocess tail bitLen).length % 64 = 0 := by
  have := zeroCount_spec tail.length
  rw [preprocess_length_eq]; omega

/-- The core takes every padded buffer. -/
theorem compress_preprocess_ok (tail : List Byte) (bitLen : Len64) (acc : Quad Word) :
    ∃ w, compress (preprocess tail bitLen) acc = .ok w :=
  compress_ok _ _ (preprocess_length_mod tail bitLen)

/-! ## The operands of a command -/

/-- COMPRESS has its block where all 64 bytes are written. -/
theorem blockOperand_eq_some_iff (s : State) (blk : Block) :
    blockOperand s = some blk ↔ ∀ j (h : j < 64), s.buf.read j = some blk[j] := by
  unfold blockOperand
  constructor
  · intro h
    split at h
    · next bytes hb =>
      obtain rfl := (blockOfList?_eq_some_iff _ _).mp h
      obtain ⟨-, hall⟩ := (Memory.readRun_eq_some_iff _ _ _ _).mp hb
      intro j hj
      have := hall j (by simpa using hj)
      simpa using this
    · simp at h
  · intro h
    have : s.buf.readRun 0 64 = some blk.toList := by
      refine (Memory.readRun_eq_some_iff _ _ _ _).mpr ⟨by simp, fun j hj => ?_⟩
      have := h j (by simpa using hj)
      simpa using this
    rw [this]
    exact (blockOfList?_eq_some_iff _ _).mpr rfl

theorem readRun_length {m : Memory} {start n : Nat} {bs : List Byte} (h : m.readRun start n = some bs) : bs.length = n :=
  ((Memory.readRun_eq_some_iff _ _ _ _).mp h).1

/-- COMPRESS lacks its block where a byte is unwritten. -/
theorem blockOperand_eq_none_iff (s : State) : blockOperand s = none ↔ ∃ j, j < 64 ∧ s.buf.read j = none := by
  unfold blockOperand
  constructor
  · intro h
    split at h
    · next bytes hb => exact absurd (readRun_length hb) ((blockOfList?_eq_none_iff _).mp h)
    · next hb => simpa using (Memory.readRun_eq_none_iff _ _ _).mp hb
  · rintro ⟨j, hj, hnone⟩
    rw [(Memory.readRun_eq_none_iff _ _ _).mpr ⟨j, hj, by simpa using hnone⟩]

/-- FINALIZE has its tail where the first `n` bytes are written. -/
theorem tailOperand_eq_some_iff (n : Nat) (s : State) (tail : List Byte) :
    tailOperand n s = some tail ↔ tail.length = n ∧ ∀ j (h : j < tail.length), s.buf.read j = some tail[j] := by
  simpa [tailOperand] using Memory.readRun_eq_some_iff s.buf 0 n tail

/-- FINALIZE lacks its tail where one of them is unwritten. -/
theorem tailOperand_eq_none_iff (n : Nat) (s : State) : tailOperand n s = none ↔ ∃ j, j < n ∧ s.buf.read j = none := by
  simpa [tailOperand] using Memory.readRun_eq_none_iff s.buf 0 n

end Sys2Proof.Machine
end

