-- ==== Sys2Proof/Laws/State.lean ====
section
/-!
SUPPORT. What each update of the state does to each field: one lemma a field, so that no proof unfolds a record
update. Each is true by `rfl`, in parentheses so that simp uses the lemma and not the unfolding: comparing two states by
unfolding makes the kernel compare their accumulators, which may hold a whole block transform.
-/
namespace Sys2Proof.Machine

/-! ## clearError -/

@[simp] theorem clearError_acc (s : State) : (clearError s).acc = s.acc := (rfl)
@[simp] theorem clearError_buf (s : State) : (clearError s).buf = s.buf := (rfl)
@[simp] theorem clearError_bitLen (s : State) : (clearError s).bitLen = s.bitLen := (rfl)
@[simp] theorem clearError_busy (s : State) : (clearError s).busy = s.busy := (rfl)
@[simp] theorem clearError_err (s : State) : (clearError s).err = false := (rfl)
@[simp] theorem clearError_dv (s : State) : (clearError s).dv = s.dv := (rfl)
@[simp] theorem clearError_errCode (s : State) : (clearError s).errCode = 0 := (rfl)
@[simp] theorem clearError_digest (s : State) : (clearError s).digest = s.digest := (rfl)
@[simp] theorem clearError_cmdLatch (s : State) : (clearError s).cmdLatch = s.cmdLatch := (rfl)
@[simp] theorem clearError_fault (s : State) : (clearError s).fault = s.fault := (rfl)
@[simp] theorem clearError_program (s : State) : (clearError s).program = s.program := (rfl)
@[simp] theorem clearError_reads (s : State) : (clearError s).reads = s.reads := (rfl)
@[simp] theorem clearError_joined (s : State) : (clearError s).joined = s.joined := (rfl)
@[simp] theorem clearError_latencies (s : State) : (clearError s).latencies = s.latencies := (rfl)
@[simp] theorem clearError_issued (s : State) : (clearError s).issued = s.issued := (rfl)
@[simp] theorem clearError_delay (s : State) : (clearError s).delay = s.delay := (rfl)

/-! ## raiseHwError -/

@[simp] theorem raiseHwError_acc (e : HwError) (s : State) : (raiseHwError e s).acc = s.acc := (rfl)
@[simp] theorem raiseHwError_buf (e : HwError) (s : State) : (raiseHwError e s).buf = s.buf := (rfl)
@[simp] theorem raiseHwError_bitLen (e : HwError) (s : State) : (raiseHwError e s).bitLen = s.bitLen := (rfl)
@[simp] theorem raiseHwError_busy (e : HwError) (s : State) : (raiseHwError e s).busy = s.busy := (rfl)
@[simp] theorem raiseHwError_err (e : HwError) (s : State) : (raiseHwError e s).err = true := (rfl)
@[simp] theorem raiseHwError_dv (e : HwError) (s : State) : (raiseHwError e s).dv = s.dv := (rfl)
@[simp] theorem raiseHwError_errCode (e : HwError) (s : State) : (raiseHwError e s).errCode = e.code := (rfl)
@[simp] theorem raiseHwError_digest (e : HwError) (s : State) : (raiseHwError e s).digest = s.digest := (rfl)
@[simp] theorem raiseHwError_cmdLatch (e : HwError) (s : State) : (raiseHwError e s).cmdLatch = s.cmdLatch := (rfl)
@[simp] theorem raiseHwError_fault (e : HwError) (s : State) : (raiseHwError e s).fault = s.fault := (rfl)
@[simp] theorem raiseHwError_program (e : HwError) (s : State) : (raiseHwError e s).program = s.program := (rfl)
@[simp] theorem raiseHwError_reads (e : HwError) (s : State) : (raiseHwError e s).reads = s.reads := (rfl)
@[simp] theorem raiseHwError_joined (e : HwError) (s : State) : (raiseHwError e s).joined = s.joined := (rfl)
@[simp] theorem raiseHwError_latencies (e : HwError) (s : State) : (raiseHwError e s).latencies = s.latencies := (rfl)
@[simp] theorem raiseHwError_issued (e : HwError) (s : State) : (raiseHwError e s).issued = s.issued := (rfl)
@[simp] theorem raiseHwError_delay (e : HwError) (s : State) : (raiseHwError e s).delay = s.delay := (rfl)

/-! ## complete -/

@[simp] theorem complete_acc (s : State) : (complete s).acc = s.acc := (rfl)
@[simp] theorem complete_buf (s : State) : (complete s).buf = s.buf := (rfl)
@[simp] theorem complete_bitLen (s : State) : (complete s).bitLen = s.bitLen := (rfl)
@[simp] theorem complete_busy (s : State) : (complete s).busy = false := (rfl)
@[simp] theorem complete_err (s : State) : (complete s).err = s.err := (rfl)
@[simp] theorem complete_dv (s : State) : (complete s).dv = s.dv := (rfl)
@[simp] theorem complete_errCode (s : State) : (complete s).errCode = s.errCode := (rfl)
@[simp] theorem complete_digest (s : State) : (complete s).digest = s.digest := (rfl)
@[simp] theorem complete_cmdLatch (s : State) : (complete s).cmdLatch = s.cmdLatch := (rfl)
@[simp] theorem complete_fault (s : State) : (complete s).fault = s.fault := (rfl)
@[simp] theorem complete_program (s : State) : (complete s).program = s.program := (rfl)
@[simp] theorem complete_reads (s : State) : (complete s).reads = s.reads := (rfl)
@[simp] theorem complete_joined (s : State) : (complete s).joined = s.joined := (rfl)
@[simp] theorem complete_latencies (s : State) : (complete s).latencies = s.latencies := (rfl)
@[simp] theorem complete_issued (s : State) : (complete s).issued = s.issued := (rfl)
@[simp] theorem complete_delay (s : State) : (complete s).delay = s.delay := (rfl)

/-! ## latchCommand -/

@[simp] theorem latchCommand_acc (v : Word) (s : State) : (latchCommand v s).acc = s.acc := (rfl)
@[simp] theorem latchCommand_buf (v : Word) (s : State) : (latchCommand v s).buf = s.buf := (rfl)
@[simp] theorem latchCommand_bitLen (v : Word) (s : State) : (latchCommand v s).bitLen = s.bitLen := (rfl)
@[simp] theorem latchCommand_busy (v : Word) (s : State) : (latchCommand v s).busy = true := (rfl)
@[simp] theorem latchCommand_err (v : Word) (s : State) : (latchCommand v s).err = false := (rfl)
@[simp] theorem latchCommand_dv (v : Word) (s : State) : (latchCommand v s).dv = s.dv := (rfl)
@[simp] theorem latchCommand_errCode (v : Word) (s : State) : (latchCommand v s).errCode = 0 := (rfl)
@[simp] theorem latchCommand_digest (v : Word) (s : State) : (latchCommand v s).digest = s.digest := (rfl)
@[simp] theorem latchCommand_cmdLatch (v : Word) (s : State) : (latchCommand v s).cmdLatch = v := (rfl)
@[simp] theorem latchCommand_fault (v : Word) (s : State) : (latchCommand v s).fault = s.fault := (rfl)
@[simp] theorem latchCommand_program (v : Word) (s : State) : (latchCommand v s).program = s.program := (rfl)
@[simp] theorem latchCommand_reads (v : Word) (s : State) : (latchCommand v s).reads = s.reads := (rfl)
@[simp] theorem latchCommand_joined (v : Word) (s : State) : (latchCommand v s).joined = s.joined := (rfl)
@[simp] theorem latchCommand_latencies (v : Word) (s : State) : (latchCommand v s).latencies = s.latencies := (rfl)
@[simp] theorem latchCommand_issued (v : Word) (s : State) : (latchCommand v s).issued = s.issued := (rfl)
@[simp] theorem latchCommand_delay (v : Word) (s : State) : (latchCommand v s).delay = s.delay := (rfl)

/-! ## issue -/

@[simp] theorem issue_acc (v : Word) (s : State) : (issue v s).acc = s.acc := (rfl)
@[simp] theorem issue_buf (v : Word) (s : State) : (issue v s).buf = s.buf := (rfl)
@[simp] theorem issue_bitLen (v : Word) (s : State) : (issue v s).bitLen = s.bitLen := (rfl)
@[simp] theorem issue_busy (v : Word) (s : State) : (issue v s).busy = true := (rfl)
@[simp] theorem issue_err (v : Word) (s : State) : (issue v s).err = false := (rfl)
@[simp] theorem issue_dv (v : Word) (s : State) : (issue v s).dv = s.dv := (rfl)
@[simp] theorem issue_errCode (v : Word) (s : State) : (issue v s).errCode = 0 := (rfl)
@[simp] theorem issue_digest (v : Word) (s : State) : (issue v s).digest = s.digest := (rfl)
@[simp] theorem issue_cmdLatch (v : Word) (s : State) : (issue v s).cmdLatch = v := (rfl)
@[simp] theorem issue_fault (v : Word) (s : State) : (issue v s).fault = s.fault := (rfl)
@[simp] theorem issue_program (v : Word) (s : State) : (issue v s).program = s.program := (rfl)
@[simp] theorem issue_reads (v : Word) (s : State) : (issue v s).reads = s.reads := (rfl)
@[simp] theorem issue_joined (v : Word) (s : State) : (issue v s).joined = s.joined := (rfl)
@[simp] theorem issue_latencies (v : Word) (s : State) : (issue v s).latencies = s.latencies.tail := (rfl)
@[simp] theorem issue_issued (v : Word) (s : State) : (issue v s).issued = s.issued + 1 := (rfl)
@[simp] theorem issue_delay (v : Word) (s : State) : (issue v s).delay = nextLatency s := (rfl)

/-! ## recordDigest -/

@[simp] theorem recordDigest_acc (w : Quad Word) (s : State) : (recordDigest w s).acc = s.acc := (rfl)
@[simp] theorem recordDigest_buf (w : Quad Word) (s : State) : (recordDigest w s).buf = s.buf := (rfl)
@[simp] theorem recordDigest_bitLen (w : Quad Word) (s : State) : (recordDigest w s).bitLen = s.bitLen := (rfl)
@[simp] theorem recordDigest_busy (w : Quad Word) (s : State) : (recordDigest w s).busy = s.busy := (rfl)
@[simp] theorem recordDigest_err (w : Quad Word) (s : State) : (recordDigest w s).err = s.err := (rfl)
@[simp] theorem recordDigest_dv (w : Quad Word) (s : State) : (recordDigest w s).dv = true := (rfl)
@[simp] theorem recordDigest_errCode (w : Quad Word) (s : State) : (recordDigest w s).errCode = s.errCode := (rfl)
@[simp] theorem recordDigest_digest (w : Quad Word) (s : State) : (recordDigest w s).digest = ⟨some w.a, some w.b, some w.c, some w.d⟩ := (rfl)
@[simp] theorem recordDigest_cmdLatch (w : Quad Word) (s : State) : (recordDigest w s).cmdLatch = s.cmdLatch := (rfl)
@[simp] theorem recordDigest_fault (w : Quad Word) (s : State) : (recordDigest w s).fault = s.fault := (rfl)
@[simp] theorem recordDigest_program (w : Quad Word) (s : State) : (recordDigest w s).program = s.program := (rfl)
@[simp] theorem recordDigest_reads (w : Quad Word) (s : State) : (recordDigest w s).reads = s.reads := (rfl)
@[simp] theorem recordDigest_joined (w : Quad Word) (s : State) : (recordDigest w s).joined = s.joined := (rfl)
@[simp] theorem recordDigest_latencies (w : Quad Word) (s : State) : (recordDigest w s).latencies = s.latencies := (rfl)
@[simp] theorem recordDigest_issued (w : Quad Word) (s : State) : (recordDigest w s).issued = s.issued := (rfl)
@[simp] theorem recordDigest_delay (w : Quad Word) (s : State) : (recordDigest w s).delay = s.delay := (rfl)

/-! ## hostReset -/

@[simp] theorem hostReset_acc (s : State) : (hostReset s).acc = iv := (rfl)
@[simp] theorem hostReset_buf (s : State) : (hostReset s).buf = [] := (rfl)
@[simp] theorem hostReset_bitLen (s : State) : (hostReset s).bitLen = 0 := (rfl)
@[simp] theorem hostReset_busy (s : State) : (hostReset s).busy = false := (rfl)
@[simp] theorem hostReset_err (s : State) : (hostReset s).err = false := (rfl)
@[simp] theorem hostReset_dv (s : State) : (hostReset s).dv = false := (rfl)
@[simp] theorem hostReset_errCode (s : State) : (hostReset s).errCode = 0 := (rfl)
@[simp] theorem hostReset_digest (s : State) : (hostReset s).digest = ⟨none, none, none, none⟩ := (rfl)
@[simp] theorem hostReset_cmdLatch (s : State) : (hostReset s).cmdLatch = 0 := (rfl)
@[simp] theorem hostReset_fault (s : State) : (hostReset s).fault = s.fault := (rfl)
@[simp] theorem hostReset_program (s : State) : (hostReset s).program = s.program := (rfl)
@[simp] theorem hostReset_reads (s : State) : (hostReset s).reads = s.reads := (rfl)
@[simp] theorem hostReset_joined (s : State) : (hostReset s).joined = s.joined := (rfl)
@[simp] theorem hostReset_latencies (s : State) : (hostReset s).latencies = s.latencies := (rfl)
@[simp] theorem hostReset_issued (s : State) : (hostReset s).issued = s.issued := (rfl)
@[simp] theorem hostReset_delay (s : State) : (hostReset s).delay = 0 := (rfl)

/-! ## recordRead -/

@[simp] theorem recordRead_acc (name : HostName) (n : Nat) (v : Word) (s : State) : (recordRead name n v s).acc = s.acc := (rfl)
@[simp] theorem recordRead_buf (name : HostName) (n : Nat) (v : Word) (s : State) : (recordRead name n v s).buf = s.buf := (rfl)
@[simp] theorem recordRead_bitLen (name : HostName) (n : Nat) (v : Word) (s : State) : (recordRead name n v s).bitLen = s.bitLen := (rfl)
@[simp] theorem recordRead_busy (name : HostName) (n : Nat) (v : Word) (s : State) : (recordRead name n v s).busy = s.busy := (rfl)
@[simp] theorem recordRead_err (name : HostName) (n : Nat) (v : Word) (s : State) : (recordRead name n v s).err = s.err := (rfl)
@[simp] theorem recordRead_dv (name : HostName) (n : Nat) (v : Word) (s : State) : (recordRead name n v s).dv = s.dv := (rfl)
@[simp] theorem recordRead_errCode (name : HostName) (n : Nat) (v : Word) (s : State) : (recordRead name n v s).errCode = s.errCode := (rfl)
@[simp] theorem recordRead_digest (name : HostName) (n : Nat) (v : Word) (s : State) : (recordRead name n v s).digest = s.digest := (rfl)
@[simp] theorem recordRead_cmdLatch (name : HostName) (n : Nat) (v : Word) (s : State) : (recordRead name n v s).cmdLatch = s.cmdLatch := (rfl)
@[simp] theorem recordRead_fault (name : HostName) (n : Nat) (v : Word) (s : State) : (recordRead name n v s).fault = s.fault := (rfl)
@[simp] theorem recordRead_program (name : HostName) (n : Nat) (v : Word) (s : State) : (recordRead name n v s).program = s.program := (rfl)
@[simp] theorem recordRead_reads (name : HostName) (n : Nat) (v : Word) (s : State) : (recordRead name n v s).reads = s.reads ++ [⟨name, n, v⟩] := (rfl)
@[simp] theorem recordRead_joined (name : HostName) (n : Nat) (v : Word) (s : State) : (recordRead name n v s).joined = s.joined := (rfl)
@[simp] theorem recordRead_latencies (name : HostName) (n : Nat) (v : Word) (s : State) : (recordRead name n v s).latencies = s.latencies := (rfl)
@[simp] theorem recordRead_issued (name : HostName) (n : Nat) (v : Word) (s : State) : (recordRead name n v s).issued = s.issued := (rfl)
@[simp] theorem recordRead_delay (name : HostName) (n : Nat) (v : Word) (s : State) : (recordRead name n v s).delay = s.delay := (rfl)

/-! ## bindJoined -/

@[simp] theorem bindJoined_acc (name : HostName) (s : State) : (bindJoined name s).acc = s.acc := (rfl)
@[simp] theorem bindJoined_buf (name : HostName) (s : State) : (bindJoined name s).buf = s.buf := (rfl)
@[simp] theorem bindJoined_bitLen (name : HostName) (s : State) : (bindJoined name s).bitLen = s.bitLen := (rfl)
@[simp] theorem bindJoined_busy (name : HostName) (s : State) : (bindJoined name s).busy = s.busy := (rfl)
@[simp] theorem bindJoined_err (name : HostName) (s : State) : (bindJoined name s).err = s.err := (rfl)
@[simp] theorem bindJoined_dv (name : HostName) (s : State) : (bindJoined name s).dv = s.dv := (rfl)
@[simp] theorem bindJoined_errCode (name : HostName) (s : State) : (bindJoined name s).errCode = s.errCode := (rfl)
@[simp] theorem bindJoined_digest (name : HostName) (s : State) : (bindJoined name s).digest = s.digest := (rfl)
@[simp] theorem bindJoined_cmdLatch (name : HostName) (s : State) : (bindJoined name s).cmdLatch = s.cmdLatch := (rfl)
@[simp] theorem bindJoined_fault (name : HostName) (s : State) : (bindJoined name s).fault = s.fault := (rfl)
@[simp] theorem bindJoined_program (name : HostName) (s : State) : (bindJoined name s).program = s.program := (rfl)
@[simp] theorem bindJoined_reads (name : HostName) (s : State) : (bindJoined name s).reads = s.reads := (rfl)
@[simp] theorem bindJoined_joined (name : HostName) (s : State) : (bindJoined name s).joined = s.joined ++ (joinedRead s.reads).toList.map (Joined.mk name) := (rfl)
@[simp] theorem bindJoined_latencies (name : HostName) (s : State) : (bindJoined name s).latencies = s.latencies := (rfl)
@[simp] theorem bindJoined_issued (name : HostName) (s : State) : (bindJoined name s).issued = s.issued := (rfl)
@[simp] theorem bindJoined_delay (name : HostName) (s : State) : (bindJoined name s).delay = s.delay := (rfl)

end Sys2Proof.Machine
end

