-- ==== Sys2Proof/Laws/Engine.lean ====
section
/-!
SUPPORT. What a command and the engine's step can do, said once: each meaning's next states, and the cases of the engine's
step.
-/
namespace Sys2Proof.Machine

theorem exec_nop (s : State) : exec .nop s = .next (complete s) := rfl

theorem exec_init (s : State) : exec .init s = .next (complete { s with acc := iv }) := rfl

/-- COMPRESS with its block. -/
theorem execCompress_of_block {s : State} {blk : Block} (h : blockOperand s = some blk) :
    execCompress s = .next (complete { s with acc := block s.acc blk }) := by simp [execCompress, h]

/-- COMPRESS without it. -/
theorem execCompress_of_unwritten {s : State} (h : blockOperand s = none) : execCompress s = .fault .unwrittenRead := by
  simp [execCompress, h]

/-- What COMPRESS can leave. -/
theorem execCompress_cases {s t : State} (h : execCompress s = .next t) :
    ∃ blk, blockOperand s = some blk ∧ t = complete { s with acc := block s.acc blk } := by
  unfold execCompress at h
  split at h
  · simp at h
  · next blk hb => exact ⟨blk, hb, by simpa using h.symm⟩

/-- FINALIZE with its tail: the core takes the padded buffer. -/
theorem execFinalize_of_tail {n : Nat} {s : State} {tail : List Byte} (hn : n ≤ 63) (h : tailOperand n s = some tail) :
    ∃ w, compress (preprocess tail s.bitLen) s.acc = .ok w ∧ execFinalize n s = .next (complete (recordDigest w s)) := by
  obtain ⟨w, hw⟩ := compress_preprocess_ok tail s.bitLen s.acc
  exact ⟨w, hw, by simp [execFinalize, show ¬ 63 < n by omega, h, paddedOperand, hw]⟩

/-- FINALIZE without it. -/
theorem execFinalize_of_unwritten {n : Nat} {s : State} (hn : n ≤ 63) (h : tailOperand n s = none) :
    execFinalize n s = .fault .unwrittenRead := by simp [execFinalize, show ¬ 63 < n by omega, h]

/-- What FINALIZE can leave. -/
theorem execFinalize_cases {n : Nat} {s t : State} (h : execFinalize n s = .next t) :
    n ≤ 63 ∧ ∃ tail w, tailOperand n s = some tail ∧ compress (preprocess tail s.bitLen) s.acc = .ok w ∧
      t = complete (recordDigest w s) := by
  unfold execFinalize at h
  split at h
  · simp at h
  · next hn =>
    split at h
    · simp at h
    · next tail ht =>
      split at h
      · simp at h
      · next w hw => exact ⟨by omega, tail, w, ht, hw, by simpa using h.symm⟩

/-- The engine's step of an Illegal word. -/
theorem engineStep_illegal {s : State} {why : IllegalWord} (h : decode s.cmdLatch = .error why) :
    engineStep s = .next (complete (raiseHwError .illegalCommand s)) := by
  simp [engineStep, fetchCommand, h, execIllegal]

/-- The engine's step of a legal word is the command's meaning. -/
theorem engineStep_legal {s : State} {i : Instr} (h : decode s.cmdLatch = .ok i) : engineStep s = exec i s := by
  simp [engineStep, fetchCommand, h]

/-- What the engine's step can leave: one case for an Illegal word and one for each command. -/
theorem engineStep_cases {s t : State} (h : engineStep s = .next t) :
    ((∃ why, decode s.cmdLatch = .error why) ∧ t = complete (raiseHwError .illegalCommand s)) ∨
    (decode s.cmdLatch = .ok .nop ∧ t = complete s) ∨
    (decode s.cmdLatch = .ok .init ∧ t = complete { s with acc := iv }) ∨
    (decode s.cmdLatch = .ok .compress ∧ ∃ blk, blockOperand s = some blk ∧
      t = complete { s with acc := block s.acc blk }) ∨
    (∃ n, decode s.cmdLatch = .ok (.finalize n) ∧ n ≤ 63 ∧ ∃ tail w, tailOperand n s = some tail ∧
      compress (preprocess tail s.bitLen) s.acc = .ok w ∧ t = complete (recordDigest w s)) := by
  cases hd : decode s.cmdLatch with
  | error why =>
    rw [engineStep_illegal hd] at h
    exact .inl ⟨⟨why, rfl⟩, by simpa using h.symm⟩
  | ok i =>
    rw [engineStep_legal hd] at h
    cases i with
    | nop => exact .inr (.inl ⟨rfl, by simpa [exec_nop] using h.symm⟩)
    | init => exact .inr (.inr (.inl ⟨rfl, by simpa [exec_init] using h.symm⟩))
    | compress => exact .inr (.inr (.inr (.inl ⟨rfl, execCompress_cases h⟩)))
    | finalize n => exact .inr (.inr (.inr (.inr ⟨n, rfl, execFinalize_cases h⟩)))

end Sys2Proof.Machine
end

