-- ==== Sys2Proof/Laws/Host.lean ====
section
/-!
SUPPORT. What a host access and a host step can do, said once: when the checks pass, the cases of a permitted write, and
the cases of a host operation.
-/
namespace Sys2Proof.Machine

/-- The form of an access that passes the shared checks. -/
theorem accessForm_ok_iff (off n : Nat) :
    accessForm off n = .ok () ↔ off < 0x80 ∧ ((off < 0x40 ∧ n = 1) ∨ (n = 4 ∧ off % 4 = 0)) := by
  unfold accessForm
  split
  · simp; omega
  · split
    · simp; omega
    · split
      · simp; omega
      · split
        · next h1 h2 h3 h4 =>
          simp only [reduceCtorEq, false_iff]
          rintro ⟨-, ⟨-, rfl⟩ | ⟨rfl, h⟩⟩ <;> omega
        · next h1 h2 h3 h4 =>
          simp only [true_iff]
          by_cases h : n = 1
          · subst h; omega
          · have : n = 4 := by omega
            subst this; omega

theorem readChecks_ok_iff (off n : Nat) (s : State) :
    readChecks off n s = .ok () ↔ accessForm off n = .ok () ∧ off ≠ 0x58 ∧ (s.busy = true → off = 0x5C) := by
  unfold readChecks
  split
  · next k hk => simp [hk]
  · next hk =>
    split
    · next h => simp [h]
    · next h =>
      split
      · next h' => simp [h'.1, h'.2]
      · next h' => simp only [hk, true_and, true_iff]; exact ⟨h, fun hb => by by_contra hne; exact h' ⟨hb, hne⟩⟩

theorem writeChecks_ok_iff (off n : Nat) (s : State) :
    writeChecks off n s = .ok () ↔ accessForm off n = .ok () ∧ off < 0x5C ∧ s.busy = false := by
  unfold writeChecks
  split
  · next k hk => simp [hk]
  · next hk =>
    split
    · next h => simp; omega
    · next h =>
      split
      · next h' => simp [h']
      · next h' => simp only [hk, true_and, true_iff]; exact ⟨by omega, by simpa using h'⟩

/-- A permitted read is a read of BUF or of a word register. -/
theorem hostRead_of_ok {off n : Nat} {s : State} (h : readChecks off n s = .ok ()) :
    hostRead off n s = if off < 0x40 then readBuf off n s else
      match wordRegAt off with
      | some r => readReg r s
      | none => .error .unmappedAccess := by
  unfold hostRead
  split
  · next k hk => simp [h] at hk
  · rfl

/-- A refused read reports its first failing check. -/
theorem hostRead_of_error {off n : Nat} {s : State} {k : Fault} (h : readChecks off n s = .error k) :
    hostRead off n s = .error k := by simp [hostRead, h]

/-- A refused write reports its first failing check. -/
theorem hostWrite_of_error {off n : Nat} {v : Word} {s : State} {k : Fault} (h : writeChecks off n s = .error k) :
    hostWrite off n v s = .error k := by simp [hostWrite, h]

/-- A permitted write is a write of BUF or of a word register. -/
theorem hostWrite_of_ok {off n : Nat} {v : Word} {s : State} (h : writeChecks off n s = .ok ()) :
    hostWrite off n v s = if off < 0x40 then .ok (writeBuf off n v s) else
      match wordRegAt off with
      | some r => writeReg r v s
      | none => .error .unmappedAccess := by
  unfold hostWrite
  split
  · next k hk => simp [h] at hk
  · rfl

/-- A register read or written at its own offset. -/
theorem wordRegAt_offset (r : WordReg) : wordRegAt r.offset = some r := by cases r <;> rfl

theorem wordRegAt_eq_some {off : Nat} {r : WordReg} (h : wordRegAt off = some r) : off = r.offset := by
  unfold wordRegAt at h
  split at h <;> simp_all <;> subst h <;> rfl

/-- Every word-aligned offset from 0x40 to 0x7F is a register's. -/
theorem wordRegAt_isSome {off : Nat} (h : 0x40 ≤ off) (h' : off < 0x80) (h4 : off % 4 = 0) : ∃ r, wordRegAt off = some r := by
  have all : ∀ k : Fin 16, (wordRegAt (0x40 + 4 * k.val)).isSome = true := by decide
  have := all ⟨(off - 0x40) / 4, by omega⟩
  rw [show 0x40 + 4 * ((off - 0x40) / 4) = off by omega] at this
  exact Option.isSome_iff_exists.mp this

/-- No word register holds BUF. -/
theorem writeReg_buf {r : WordReg} {v : Word} {s t : State} (h : writeReg r v s = .ok t) : t.buf = s.buf := by
  cases r <;> simp only [writeReg, reduceCtorEq, Except.ok.injEq] at h <;> (subst h; rfl)

/-- A host write is a write of BUF or of one word register; in both cases the engine was not busy. -/
theorem hostWrite_place {off n : Nat} {v : Word} {s t : State} (h : hostWrite off n v s = .ok t) :
    s.busy = false ∧
    ((off < 0x40 ∧ (n = 1 ∨ n = 4 ∧ off % 4 = 0) ∧ t = writeBuf off n v s) ∨
     (n = 4 ∧ ∃ r : WordReg, off = r.offset ∧ off < 0x5C ∧ writeReg r v s = .ok t)) := by
  cases hc : writeChecks off n s with
  | error k => rw [hostWrite_of_error hc] at h; simp at h
  | ok u =>
    obtain ⟨hform, hlt, hbusy⟩ := (writeChecks_ok_iff off n s).mp hc
    obtain ⟨-, hw⟩ := (accessForm_ok_iff off n).mp hform
    refine ⟨hbusy, ?_⟩
    rw [hostWrite_of_ok hc] at h
    split at h
    · next hoff => exact .inl ⟨hoff, by omega, by simpa using h.symm⟩
    · next hoff =>
      split at h
      · next r hr => exact .inr ⟨by omega, r, wordRegAt_eq_some hr, hlt, h⟩
      · simp at h

/-- What a host write leaves of BUF. -/
theorem hostWrite_buf {off n : Nat} {v : Word} {s t : State} (h : hostWrite off n v s = .ok t) :
    t.buf = s.buf ∨ (off < 0x40 ∧ t.buf = s.buf.write off (byteOf v 0)) ∨
    (off < 0x40 ∧ off % 4 = 0 ∧ t.buf = s.buf.writeWord off v) := by
  obtain ⟨-, hbuf | hreg⟩ := hostWrite_place h
  · obtain ⟨hoff, hn, ht⟩ := hbuf
    by_cases h1 : n = 1
    · exact .inr (.inl ⟨hoff, by simp [ht, writeBuf, h1]⟩)
    · exact .inr (.inr ⟨hoff, by omega, by simp [ht, writeBuf, h1]⟩)
  · obtain ⟨-, r, -, -, hw⟩ := hreg
    exact .inl (writeReg_buf hw)

/-- What a host write can leave: a byte or a word of BUF, one accumulator word, one half of BITLEN, or an issued command.
In every case the engine was not busy. -/
theorem hostWrite_cases {off n : Nat} {v : Word} {s t : State} (h : hostWrite off n v s = .ok t) :
    s.busy = false ∧
    ((off < 0x40 ∧ n = 1 ∧ t = { s with buf := s.buf.write off (byteOf v 0) }) ∨
     (off < 0x40 ∧ off % 4 = 0 ∧ n = 4 ∧ t = { s with buf := s.buf.writeWord off v }) ∨
     (n = 4 ∧ off = 0x40 ∧ t = { s with acc := { s.acc with a := v } }) ∨
     (n = 4 ∧ off = 0x44 ∧ t = { s with acc := { s.acc with b := v } }) ∨
     (n = 4 ∧ off = 0x48 ∧ t = { s with acc := { s.acc with c := v } }) ∨
     (n = 4 ∧ off = 0x4C ∧ t = { s with acc := { s.acc with d := v } }) ∨
     (n = 4 ∧ off = 0x50 ∧ t = { s with bitLen := joinWords (highWord s.bitLen) v }) ∨
     (n = 4 ∧ off = 0x54 ∧ t = { s with bitLen := joinWords v (lowWord s.bitLen) }) ∨
     (n = 4 ∧ off = 0x58 ∧ t = issue v s)) := by
  obtain ⟨hbusy, hbuf | hreg⟩ := hostWrite_place h
  · obtain ⟨hoff, hn, ht⟩ := hbuf
    refine ⟨hbusy, ?_⟩
    by_cases h1 : n = 1
    · exact .inl ⟨hoff, h1, by simp [ht, writeBuf, h1]⟩
    · exact .inr (.inl ⟨hoff, by omega, by omega, by simp [ht, writeBuf, h1]⟩)
  · obtain ⟨hn, r, rfl, hlt, hw⟩ := hreg
    refine ⟨hbusy, ?_⟩
    cases r <;> simp [writeReg, WordReg.offset] at hw hlt ⊢ <;> exact ⟨hn, hw.symm⟩

/-- STATUS is read in every state, BUSY or not. -/
theorem hostRead_status (s : State) : hostRead 0x5C 4 s = .ok (statusWord s) := by
  rw [hostRead_of_ok ((readChecks_ok_iff _ _ _).mpr ⟨rfl, by decide, fun _ => rfl⟩)]; rfl

/-- Bit 0 of STATUS is BUSY. -/
theorem statusBusyBit_statusWord (s : State) : statusBusyBit (statusWord s) = s.busy := by
  have h : ∀ (e : BitVec 4) (dv er bs : Bool),
      ((e ++ 0#1 ++ BitVec.ofBool dv ++ BitVec.ofBool er ++ BitVec.ofBool bs : BitVec 8).setWidth 32).getLsbD 0 = bs := by
    decide
  exact h s.errCode s.dv s.err s.busy

/-- A round of `wait` on a busy engine: the loop goes on. -/
theorem hostOpWait_busy {s : State} (h : s.busy = true) :
    hostOpWait s = .next (recordRead statusName 4 (statusWord s) { s with program := .wait :: s.program }) := by
  unfold hostOpWait
  rw [show WordReg.status.offset = 0x5C from rfl, hostRead_status]
  simp only [statusBusyBit_statusWord]
  rw [if_pos h]

/-- A round of `wait` on an engine that is not busy: the loop ends. -/
theorem hostOpWait_ready {s : State} (h : s.busy = false) :
    hostOpWait s = .next (recordRead statusName 4 (statusWord s) s) := by
  unfold hostOpWait
  rw [show WordReg.status.offset = 0x5C from rfl, hostRead_status]
  simp only [statusBusyBit_statusWord]
  rw [if_neg (by simp [h])]

/-- What a host operation can leave. -/
theorem hostOp_cases {op : HostOp} {s t : State} (h : hostOp op s = .next t) :
    (∃ off n name v, op = .read off n name ∧ hostRead off n s = .ok v ∧ t = recordRead name n v s) ∨
    (∃ off n v, op = .write off n v ∧ v < 2 ^ (8 * n) ∧ hostWrite off n (BitVec.ofNat 32 v) s = .ok t) ∨
    (op = .rst ∧ t = hostReset s) ∨
    (op = .wait ∧ s.busy = true ∧ t = recordRead statusName 4 (statusWord s) { s with program := .wait :: s.program }) ∨
    (op = .wait ∧ s.busy = false ∧ t = recordRead statusName 4 (statusWord s) s) ∨
    (∃ name v, op = .getdoutEnd name ∧ hostRead 0x70 4 s = .ok v ∧
      t = bindJoined name (recordRead ['t', '0'] 4 v s)) := by
  cases op with
  | getdoutEnd name =>
    change hostOpGetdoutEnd name s = .next t at h
    unfold hostOpGetdoutEnd at h
    split at h
    · simp at h
    · next v hv => exact .inr (.inr (.inr (.inr (.inr ⟨name, v, rfl, hv, by simpa using h.symm⟩))))
  | read off n name =>
    simp only [hostOp, hostOpRead] at h
    split at h
    · simp at h
    · next v hv => exact .inl ⟨off, n, name, v, rfl, hv, by simpa using h.symm⟩
  | write off n v =>
    simp only [hostOp, hostOpWrite] at h
    split at h
    · simp at h
    · next hv =>
      split at h
      · simp at h
      · next u hu =>
        obtain rfl : u = t := by simpa using h
        exact .inr (.inl ⟨off, n, v, rfl, by omega, hu⟩)
  | rst => exact .inr (.inr (.inl ⟨rfl, by simpa [hostOp] using h.symm⟩))
  | wait =>
    change hostOpWait s = .next t at h
    by_cases hb : s.busy = true
    · rw [hostOpWait_busy hb] at h
      exact .inr (.inr (.inr (.inl ⟨rfl, hb, by simpa using h.symm⟩)))
    · have hb' : s.busy = false := by simpa using hb
      rw [hostOpWait_ready hb'] at h
      exact .inr (.inr (.inr (.inr (.inl ⟨rfl, hb', by simpa using h.symm⟩))))

/-- What a host operation leaves of BUF: only a reset and a host write touch it. -/
theorem hostOp_buf {op : HostOp} {s t : State} (h : hostOp op s = .next t) :
    t.buf = s.buf ∨ (t.buf = [] ∧ op = .rst) ∨ ∃ off n v, hostWrite off n v s = .ok t := by
  rcases hostOp_cases h with ⟨_, _, _, _, -, -, ht⟩ | ⟨off, n, v, -, -, hw⟩ | ⟨hop, ht⟩ | ⟨-, -, ht⟩ | ⟨-, -, ht⟩ |
    ⟨_, _, -, -, ht⟩
  · exact .inl (by rw [ht]; rfl)
  · exact .inr (.inr ⟨off, n, _, hw⟩)
  · exact .inr (.inl ⟨by rw [ht]; rfl, hop⟩)
  all_goals exact .inl (by rw [ht]; rfl)

end Sys2Proof.Machine
end

