-- ==== Sys2Proof/Laws/Step.lean ====
section
/-!
SUPPORT. The cases of a step, and what each turn is.
-/
namespace Sys2Proof.Machine

theorem nextTurn_engine_iff (s : State) : nextTurn s = .engine ↔ s.busy = true ∧ (s.delay = 0 ∨ s.program = []) := by
  unfold nextTurn
  cases s.busy <;> cases s.program <;> simp

theorem nextTurn_host_iff (s : State) : nextTurn s = .host ↔ s.program ≠ [] ∧ (s.busy = true → s.delay ≠ 0) := by
  unfold nextTurn
  cases s.busy <;> cases s.program <;> simp

theorem nextTurn_idle_iff (s : State) : nextTurn s = .idle ↔ s.busy = false ∧ s.program = [] := by
  unfold nextTurn
  cases s.busy <;> cases s.program <;> simp
  split <;> simp

theorem step_faulted {s : State} {k : Fault} (h : s.fault = some k) : step s = .fault k := by simp [step, h]

theorem step_engine {s : State} (hf : s.fault = none) (ht : nextTurn s = .engine) : step s = engineStep s := by
  simp [step, hf, ht]

theorem step_host {s : State} {op : HostOp} {rest : List HostOp} (hf : s.fault = none) (ht : nextTurn s = .host)
    (hp : s.program = op :: rest) : step s = hostOp op { s with program := rest, delay := s.delay - 1 } := by
  simp [step, hf, ht, hostStep, hp]

theorem step_idle {s : State} (hf : s.fault = none) (ht : nextTurn s = .idle) : step s = .next s := by
  simp [step, hf, ht]

/-- What a step that answers a next state was: an engine step, a host operation, or no step. -/
theorem step_cases {s t : State} (h : step s = .next t) :
    s.fault = none ∧
    ((nextTurn s = .engine ∧ engineStep s = .next t) ∨
     (nextTurn s = .host ∧ ∃ op rest, s.program = op :: rest ∧
       hostOp op { s with program := rest, delay := s.delay - 1 } = .next t) ∨
     (nextTurn s = .idle ∧ t = s)) := by
  have hf : s.fault = none := by
    by_contra hne
    obtain ⟨k, hk⟩ := Option.ne_none_iff_exists'.mp hne
    rw [step_faulted hk] at h
    simp at h
  refine ⟨hf, ?_⟩
  cases ht : nextTurn s with
  | engine => rw [step_engine hf ht] at h; exact .inl ⟨rfl, h⟩
  | host =>
    cases hp : s.program with
    | nil => exact absurd hp ((nextTurn_host_iff s).mp ht).1
    | cons op rest => rw [step_host hf ht hp] at h; exact .inr (.inl ⟨rfl, op, rest, rfl, h⟩)
  | idle => rw [step_idle hf ht] at h; exact .inr (.inr ⟨rfl, by simpa using h.symm⟩)

end Sys2Proof.Machine
end

