-- ==== Sys2Proof/Laws/Invariant.lean ====
section
/-!
SUPPORT. The parts of the invariant under each update, for the proof that a step keeps it.
-/
namespace Sys2Proof.Machine

/-- Storage stays canonical under a host write (log entry 5). -/
theorem hostWrite_buf_wf {off n : Nat} {v : Word} {s t : State} (h : hostWrite off n v s = .ok t) (hwf : s.buf.wf = true) :
    t.buf.wf = true := by
  obtain heq | ⟨hlt, heq⟩ | ⟨hlt, h4, heq⟩ := hostWrite_buf h
  · rw [heq]; exact hwf
  · rw [heq]; exact Memory.write_wf _ hwf hlt
  · rw [heq]; exact Memory.writeWord_wf _ hwf (by omega)

/-- No engine step touches BUF (43_commands.md R178). -/
theorem engineStep_buf {s t : State} (h : engineStep s = .next t) : t.buf = s.buf := by
  rcases engineStep_cases h with ⟨_, ht⟩ | ⟨_, ht⟩ | ⟨_, ht⟩ | ⟨_, _, _, ht⟩ | ⟨_, _, _, _, _, _, _, ht⟩ <;> simp [ht]

/-- Storage is canonical after every operation of the machine: reset leaves it empty, a host write keeps the form, nothing
else touches it. -/
theorem step_buf_wf {s t : State} (h : step s = .next t) (hwf : s.buf.wf = true) : t.buf.wf = true := by
  obtain ⟨-, ⟨-, he⟩ | ⟨-, op, rest, -, ho⟩ | ⟨-, rfl⟩⟩ := step_cases h
  · rw [engineStep_buf he]; exact hwf
  · obtain heq | ⟨hreset, -⟩ | ⟨_, _, _, hw⟩ := hostOp_buf ho
    · rw [heq]; exact hwf
    · rw [hreset]; rfl
    · exact hostWrite_buf_wf hw hwf
  · exact hwf

end Sys2Proof.Machine
end

