-- ==== Sys2Proof/Laws/PerInstr.lean ====
section
/-!
SUPPORT. Statements made once per command of the table: its row in the opcode map.
-/
namespace Sys2Proof.Laws

/-- The match and mask of a command's row (30_encoding.md R82). -/
def OpcodeMap.row (i : Instr) : Word × Word :=
  match i with
  | .nop => (0x00000000#32, 0xFFFFFFFF#32)
  | .init => (0x00000001#32, 0xFFFFFFFF#32)
  | .compress => (0x00000002#32, 0xFFFFFFFF#32)
  | .finalize _ => (0x00000003#32, 0xFFFFC0FF#32)

/-- The command's word is in its row of the table: `w & mask = match`. -/
def OpcodeMap.Statement (i : Instr) : Prop := encode i &&& (OpcodeMap.row i).2 = (OpcodeMap.row i).1

theorem OpcodeMap.nop : OpcodeMap.Statement .nop := by unfold OpcodeMap.Statement; decide

theorem OpcodeMap.init : OpcodeMap.Statement .init := by unfold OpcodeMap.Statement; decide

theorem OpcodeMap.compress : OpcodeMap.Statement .compress := by unfold OpcodeMap.Statement; decide

/-- For every TAILLEN, of all 64 values of the field. -/
theorem OpcodeMap.finalize (n : Nat) : OpcodeMap.Statement (.finalize n) := by
  have h : ∀ l : BitVec 6, cmdWord l 0x3#4 &&& 0xFFFFC0FF#32 = 0x00000003#32 := by decide
  exact h (BitVec.ofNat 6 n)

end Sys2Proof.Laws
end

