-- ==== Sys2Proof/Laws/Run.lean ====
section
/-!
SUPPORT. Runs: one step more, and one run after another.
-/
namespace Sys2Proof.Machine

theorem runFor_zero (s : State) : runFor 0 s = .next s := rfl

theorem runFor_succ {s t : State} (k : Nat) (h : step s = .next t) : runFor (k + 1) s = runFor k t := by
  have hstep : Host.Core.step Sys2Proof.core s = .next t := h
  simp only [runFor, Host.Core.run, hstep]
  rfl

theorem Reaches.refl (s : State) : Reaches s s := ⟨0, rfl⟩

/-- A step, then a run. -/
theorem Reaches.head {s t u : State} (h : step s = .next t) (hr : Reaches t u) : Reaches s u := by
  obtain ⟨k, hk⟩ := hr
  exact ⟨k + 1, by rw [runFor_succ k h]; exact hk⟩

/-- A run, then a run. -/
theorem Reaches.trans {s t u : State} (h : Reaches s t) (hr : Reaches t u) : Reaches s u := by
  obtain ⟨k, hk⟩ := h
  induction k generalizing s with
  | zero =>
    rw [runFor_zero] at hk
    obtain rfl : s = t := by simpa using hk
    exact hr
  | succ k ih =>
    cases hs : step s with
    | next m => rw [runFor_succ k hs] at hk; exact Reaches.head hs (ih hk)
    | fault f =>
      have : runFor (k + 1) s = .fault f := by
        have hstep : Host.Core.step Sys2Proof.core s = .fault f := hs
        simp only [runFor, Host.Core.run, hstep]
        rfl
      rw [this] at hk; simp at hk
    | refused r =>
      have : runFor (k + 1) s = .refused r := by
        have hstep : Host.Core.step Sys2Proof.core s = .refused r := hs
        simp only [runFor, Host.Core.run, hstep]
        rfl
      rw [this] at hk; simp at hk

/-- A host operation of an idle engine, as a step of a run. -/
theorem Reaches.host {s t u : State} {op : HostOp} {rest : List HostOp} (hf : s.fault = none) (hb : s.busy = false)
    (hp : s.program = op :: rest) (ho : hostOp op { s with program := rest, delay := s.delay - 1 } = .next t)
    (hr : Reaches t u) : Reaches s u := by
  refine Reaches.head ?_ hr
  rw [step_host hf ((nextTurn_host_iff s).mpr ⟨by simp [hp], by simp [hb]⟩) hp]
  exact ho

end Sys2Proof.Machine
end

