-- ==== Sys2Proof/Tests/Slice0.lean ====
section
/-!
SUPPORT. The model's own tests. Every expected value is one of 95_test_vectors.md, whose id stands beside the test, or is
written out from the rule named there. Then, for every statement with hypotheses, a witness: concrete states and operands
that meet them, clause by clause.
-/
namespace Sys2Proof.Tests

open Sys2Proof.Machine

/-! ## Helpers -/

/-- The state an outcome gives, if it gives one. -/
def nextOf (o : Host.Outcome State Fault Refusal) : Option State :=
  match o with
  | .next t => some t
  | .fault _ => none
  | .refused _ => none

/-- The fault an outcome ends in, if it ends in one. -/
def faultOf (o : Host.Outcome State Fault Refusal) : Option Fault :=
  match o with
  | .next _ => none
  | .fault k => some k
  | .refused _ => none

theorem exists_next {o : Host.Outcome State Fault Refusal} (h : (nextOf o).isSome = true) : ∃ t, o = .next t := by
  cases o with
  | next t => exact ⟨t, rfl⟩
  | fault k => simp [nextOf] at h
  | refused r => simp [nextOf] at h

theorem eq_next {o : Host.Outcome State Fault Refusal} {t : State} (h : nextOf o = some t) : o = .next t := by
  cases o with
  | next u => exact congrArg _ (Option.some.inj h)
  | fault k => simp [nextOf] at h
  | refused r => simp [nextOf] at h

theorem eq_fault {o : Host.Outcome State Fault Refusal} {k : Fault} (h : faultOf o = some k) : o = .fault k := by
  cases o with
  | next u => simp [faultOf] at h
  | fault j => exact congrArg _ (Option.some.inj h)
  | refused r => simp [faultOf] at h

/-- BUF holding a text from offset 0. -/
def bufOf (bytes : List Byte) : Memory := (List.range bytes.length).zip bytes

/-- 64 bytes 0x61. -/
def sixtyFourA : Block := Vector.replicate 64 0x61#8

/-- The state at power-on with BUF and BITLEN as given. -/
def loaded (bytes : List Byte) (bitLen : Len64) : State := { State.reset with buf := bufOf bytes, bitLen := bitLen }

/-- BUF = "a" x 64. -/
def loadedA : State := loaded sixtyFourA.toList 512#64

/-- The state at power-on with a command word issued, and host operations still to come. -/
def pending (w : Word) (delay : Nat) (program : List HostOp) : State :=
  { State.reset with busy := true, cmdLatch := w, delay := delay, program := program }

/-- The state at power-on with host operations to come. -/
def withProgram (ops : List HostOp) : State := { State.reset with program := ops }

/-- "helloworld". -/
def helloworld : List Byte :=
  [0x68#8, 0x65#8, 0x6C#8, 0x6C#8, 0x6F#8, 0x77#8, 0x6F#8, 0x72#8, 0x6C#8, 0x64#8]

/-! ## Well-formedness: the one check, and the term it refuses -/

theorem test_wellFormed_refuses_tail_64 : ¬ Instr.WellFormed (.finalize 64) := by decide

theorem test_wellFormed_admits_tail_63 : Instr.WellFormed (.finalize 63) := by decide

/-! ## Decoding, bit by bit from R80 and R82 (T-dec) -/

theorem test_decode_nop : decode 0b00000000000000000000000000000000#32 = .ok .nop := by decide

theorem test_decode_init : decode 0b00000000000000000000000000000001#32 = .ok .init := by decide

theorem test_decode_compress : decode 0b00000000000000000000000000000010#32 = .ok .compress := by decide

theorem test_decode_finalize_56 : decode 0b00000000000000000011100000000011#32 = .ok (.finalize 56) := by decide

theorem test_decode_rsv1_bit31 : decode 0b10000000000000000000000000000011#32 = .error .reservedField := by decide

theorem test_decode_op15 : decode 0b00000000000000000000000000001111#32 = .error .reservedOpcode := by decide

theorem test_decode_nop_with_tail : decode 0b00000000000000000000000100000000#32 = .error .unexpectedTailLen := by decide

theorem test_encode_finalize_63 : encode (.finalize 63) = 0x00003F03#32 := by decide

/-! ## The commands, one step each (T-cmd) -/

/-- T-cmd-3: a NOP after an error leaves STATUS 0. -/
theorem test_nop_status :
    (nextOf (step ({ State.reset with err := true, errCode := 1#4 }.withFetchWord 32 0x00000000))).map statusWord =
      some 0x00000000#32 := by decide +kernel

/-- T-cmd-6: INIT reloads ACC. -/
theorem test_init_acc :
    (nextOf (step ({ State.reset with acc := ⟨1#32, 2#32, 3#32, 4#32⟩ }.withFetchWord 32 0x00000001))).map State.acc =
      some ⟨0x67452301#32, 0xEFCDAB89#32, 0x98BADCFE#32, 0x10325476#32⟩ := by decide +kernel

/-- T-cmd-7. -/
theorem test_compress_a64 :
    (nextOf (step (loadedA.withFetchWord 32 0x00000002))).map State.acc =
      some ⟨0x89D4FF56#32, 0x125CD962#32, 0x69CADE33#32, 0x0033E325#32⟩ := by decide +kernel

/-- T-cmd-11. -/
theorem test_compress_unwritten :
    faultOf (step (State.reset.withFetchWord 32 0x00000002)) = some .unwrittenRead := by decide +kernel

/-- T-cmd-9: the words before the swap. -/
theorem test_finalize_helloworld :
    (nextOf (step ((loaded helloworld 80#64).withFetchWord 32 0x00000A03))).map State.digest =
      some ⟨some 0x8D035EFC#32, some 0x3270A538#32, some 0xE7415408#32, some 0xB01070FE#32⟩ := by decide +kernel

/-- T-cmd-12 and V1: an empty tail reads no BUF byte; DOUT shows the canonical digest. -/
theorem test_finalize_empty_dout :
    (nextOf (step (State.reset.withFetchWord 32 0x00000003))).map
        (fun t => [hostRead 0x7C 4 t, hostRead 0x78 4 t, hostRead 0x74 4 t, hostRead 0x70 4 t]) =
      some [.ok 0xD41D8CD9#32, .ok 0x8F00B204#32, .ok 0xE9800998#32, .ok 0xECF8427E#32] := by decide +kernel

/-- T-cmd-4: an Illegal word reports the error and leaves DV. -/
theorem test_illegal_status :
    (nextOf (step ({ State.reset with dv := true }.withFetchWord 32 0x00000004))).map statusWord =
      some 0x00000016#32 := by decide +kernel

/-! ## Codec, preprocessor, core -/

/-- T-codec-3. -/
theorem test_bytesToWordLe_no_sign : bytesToWordLe 0xFF#8 0x00#8 0x00#8 0x80#8 = 0x800000FF#32 := by decide

/-- T-codec-6. -/
theorem test_wordToBytesLe : wordToBytesLe 0x80636261#32 = (0x61#8, 0x62#8, 0x63#8, 0x80#8) := by decide

/-- T-codec-11. -/
theorem test_lengthToBytesLe :
    lengthToBytesLe 0x0123456789ABCDEF#64 = [0xEF#8, 0xCD#8, 0xAB#8, 0x89#8, 0x67#8, 0x45#8, 0x23#8, 0x01#8] := by decide

/-- T-codec-15. -/
theorem test_formatDigest :
    formatDigest ⟨0xD98C1DD4#32, 0x04B2008F#32, 0x980980E9#32, 0x7E42F8EC#32⟩ =
      0xd41d8cd98f00b204e9800998ecf8427e#128 := by decide +kernel

/-- T-codec-17. -/
theorem test_digestBytes :
    digestBytes ⟨0xD98C1DD4#32, 0x04B2008F#32, 0x980980E9#32, 0x7E42F8EC#32⟩ =
      [0xd4#8, 0x1d#8, 0x8c#8, 0xd9#8, 0x8f#8, 0x00#8, 0xb2#8, 0x04#8, 0xe9#8, 0x80#8, 0x09#8, 0x98#8, 0xec#8, 0xf8#8,
       0x42#8, 0x7e#8] := by decide

/-- T-pre-1, T-pre-4, T-pre-5, T-pre-7: the zero-byte counts. -/
theorem test_zeroCount : [0, 55, 56, 63].map zeroCount = [55, 0, 63, 56] := by decide

/-- T-pre-4: the terminator meets the length field. -/
theorem test_preprocess_55 :
    (preprocess (List.replicate 55 0x61#8) 440#64).drop 55 =
      [0x80#8, 0xB8#8, 0x01#8, 0x00#8, 0x00#8, 0x00#8, 0x00#8, 0x00#8, 0x00#8] := by decide +kernel

/-- T-fn-12 to T-fn-15. -/
theorem test_roundFunctions :
    [roundF 0xEFCDAB89#32 0x98BADCFE#32 0x10325476#32, roundG 0xEFCDAB89#32 0x98BADCFE#32 0x10325476#32,
     roundH 0xEFCDAB89#32 0x98BADCFE#32 0x10325476#32, roundI 0xEFCDAB89#32 0x98BADCFE#32 0x10325476#32] =
      [0x98BADCFE#32, 0x88888888#32, 0x67452301#32, 0x77777777#32] := by decide

/-- T-rot-2, T-rot-3, T-rot-8, and `rotl(x, 0) = x` (R10). -/
theorem test_rotl :
    [rotl 0x12345678#32 4, rotl 0x12345678#32 31, rotl 0x0000FFFF#32 23, rotl 0x12345678#32 0] =
      [0x23456781#32, 0x091A2B3C#32, 0xFF80007F#32, 0x12345678#32] := by decide

/-- T-step-6: the last step of the last round. -/
theorem test_roundStep_63 :
    roundStep 63 iv (fun _ => 0) = ⟨0x10325476#32, 0xB106F3F6#32, 0xEFCDAB89#32, 0x98BADCFE#32⟩ := by decide +kernel

/-- T-blk-6. -/
theorem test_block_zero :
    block ⟨0#32, 0#32, 0#32, 0#32⟩ (Vector.replicate 64 0x00#8) =
      ⟨0xF7CD1C97#32, 0xA5483681#32, 0x2B68D832#32, 0xF90CA639#32⟩ := by decide +kernel

/-- T-blk-11. -/
theorem test_compress_65_bytes : compress (List.replicate 65 0x00#8) iv = .error .blockLengthViolation := by decide +kernel

/-- T-calc-12: 120 bytes, the drained block and a two-block tail. -/
theorem test_calculate_a120 :
    calculate (List.replicate 120 0x61#8) = .ok 0x5f61c0ccad4cac44c75ff505e1f1e537#128 := by decide +kernel

/-- T-host-2: a block drained from two consumes. -/
theorem test_consume_drains :
    consume (consume digestNew (List.replicate 60 0x61#8)) (List.replicate 10 0x61#8) =
      ⟨⟨0x89D4FF56#32, 0x125CD962#32, 0x69CADE33#32, 0x0033E325#32⟩, List.replicate 6 0x61#8, 70#64⟩ := by decide +kernel

/-! ## Host accesses (T-acc) and the assembler -/

/-- T-acc-2. -/
theorem test_mixed_width :
    (match hostWrite 0x00 4 0x11223344#32 State.reset with
      | .ok t => (match hostWrite 0x01 1 0xAA#32 t with
        | .ok u => hostRead 0x00 4 u
        | .error k => .error k)
      | .error k => .error k) = .ok 0x1122AA44#32 := by decide +kernel

/-- T-acc-7, T-acc-9, T-acc-11, T-acc-14, T-acc-16: the order of the checks. -/
theorem test_check_order :
    hostRead 0x81 1 State.reset = .error .unmappedAccess ∧ hostRead 0x01 2 State.reset = .error .unsupportedWidth ∧
    (hostWrite 0x5E 4 0#32 State.reset).toOption = none ∧ writeChecks 0x5E 4 State.reset = .error .misalignedAccess ∧
    writeChecks 0x60 4 (pending 0 1 []) = .error .accessDenied ∧
    hostRead 0x04 4 (pending 0 1 []) = .error .hostAccessWhileBusy := by decide +kernel

/-- P2: the transactions of `ldbuf BUF, "helloworld"`. -/
theorem test_ldbuf_text :
    assembleLine "ldbuf BUF, \"helloworld\"  ; P2".toList =
      .ok [.write 0x00 4 0x6C6C6568, .write 0x04 4 0x726F776F, .write 0x08 1 0x6C, .write 0x09 1 0x64] := by decide +kernel

/-- R86: a wider immediate is refused; T-dec-15: the printed text of an Illegal word. -/
theorem test_assembler_edges :
    assembleLine "wr8 BUF+1, 0x100".toList = .error .immediateTooWide ∧
    assembleLine "wr8 BUF+1, 0xff".toList = .ok [.write 0x01 1 0xFF] ∧
    disassembleText 0xFFFFFFFF#32 = "cmd 0xffffffff".toList ∧
    disassembleText 0x00003803#32 = "finalize 56".toList := by decide +kernel

/-- R88 and P1: D is what `getdout -> D` has bound to it, and that is `t3 ++ t2 ++ t1 ++ t0`. -/
theorem test_getdout_binds_its_name :
    getdoutValue ['D'] [⟨['D'], 5#128⟩, ⟨['E'], 6#128⟩] = some 5#128 ∧
    joinedRead [⟨['t', '3'], 4, 0xd41d8cd9#32⟩, ⟨['t', '2'], 4, 0x8f00b204#32⟩, ⟨['t', '1'], 4, 0xe9800998#32⟩,
      ⟨['t', '0'], 4, 0xecf8427e#32⟩] = some 0xd41d8cd98f00b204e9800998ecf8427e#128 := by decide +kernel

/-! ## Witnesses: encoding -/

theorem witness_DecodeRuleOnAllWords :
    ((0x00000010#32).toNat / 2 ^ 4 % 16 ≠ 0 ∧ (0x00004000#32).toNat / 2 ^ 14 ≠ 0) ∧
    (∀ op, op < 4 → (BitVec.ofNat 32 op).toNat / 2 ^ 4 % 16 = 0 ∧ (BitVec.ofNat 32 op).toNat / 2 ^ 14 = 0 ∧
      (BitVec.ofNat 32 op).toNat / 2 ^ 8 % 64 = 0 ∧ (BitVec.ofNat 32 op).toNat % 16 = op) ∧
    ((0x00003F02#32).toNat / 2 ^ 4 % 16 = 0 ∧ (0x00003F02#32).toNat / 2 ^ 14 = 0 ∧
      (0x00003F02#32).toNat / 2 ^ 8 % 64 ≠ 0 ∧ (0x00003F02#32).toNat % 16 < 3) ∧
    ((0x00000004#32).toNat / 2 ^ 4 % 16 = 0 ∧ (0x00000004#32).toNat / 2 ^ 14 = 0 ∧ 4 ≤ (0x00000004#32).toNat % 16) := by
  decide

theorem witness_MatchAndMaskSelectTheMnemonic : 4 ≤ (0x00000004#32 : Word).toNat % 16 := by decide

theorem witness_DecodeIsTheInverseOfEncode :
    decode 0x00003F03#32 = .ok (.finalize 63) ∧ (Instr.finalize 63).WellFormed ∧ encode (.finalize 63) = 0x00003F03#32 := by
  decide

theorem witness_DisassemblyAssemblesBack :
    decode 0x00000000#32 = .ok .nop ∧ decode 0x00000001#32 = .ok .init ∧ decode 0x00000002#32 = .ok .compress ∧
    decode 0x00003F03#32 = .ok (.finalize 63) ∧ decode 0xFFFFFFFF#32 = .error .reservedField ∧ 7 < 8 := by decide

/-- An engine with a digest, read as far as `t1` by `getdout`. -/
def gettingDout : State :=
  { State.reset with
    dv := true, digest := ⟨some 1#32, some 2#32, some 3#32, some 4#32⟩,
    reads := [⟨['t', '3'], 4, 0x01000000#32⟩, ⟨['t', '2'], 4, 0x02000000#32⟩, ⟨['t', '1'], 4, 0x03000000#32⟩] }

/-- `ldbuf` at an aligned offset with four bytes left, at an unaligned one, and with three left; the last line of `getdout`;
and a round of `wait` with BUSY at 1 and at 0. -/
theorem witness_PseudoInstructionsExpandAsTabled :
    63 ≤ 63 ∧ 2 ^ 64 - 1 < 2 ^ 64 ∧ 0x3C % 4 = 0 ∧ 0x3D % 4 ≠ 0 ∧ [0x61#8, 0x62#8, 0x63#8].length < 4 ∧
    (lookupRead "t3".toList gettingDout.reads = some 0x01000000#32 ∧
      lookupRead "t2".toList gettingDout.reads = some 0x02000000#32 ∧
      lookupRead "t1".toList gettingDout.reads = some 0x03000000#32 ∧ hostRead 0x70 4 gettingDout = .ok 0x04000000#32) ∧
    (hostRead 0x5C 4 (pending 0 1 []) = .ok 0x00000001#32 ∧ (0x00000001#32).getLsbD 0 = true) ∧
    (hostRead 0x5C 4 State.reset = .ok 0x00000000#32 ∧ (0x00000000#32).getLsbD 0 = false) := by decide +kernel

/-! ## Witnesses: codec, preprocessor, core -/

/-- A tail of one byte: byte 0 of the message, the first and the last zero byte, the last length byte. -/
theorem witness_PaddedBufferLayout :
    0 < [0x61#8].length ∧ ([0x61#8].length < 2 ∧ 2 ≤ [0x61#8].length + zeroCount 1) ∧
    ([0x61#8].length < 55 ∧ 55 ≤ [0x61#8].length + zeroCount 1) ∧ 7 < 8 := by decide

/-- Both branches at their boundary, and the count that satisfies the equation there. -/
theorem witness_ZeroByteCountByResidue :
    (0 ≤ 63 ∧ (55 + 1 + 0) % 64 = 56 ∧ 55 % 64 ≤ 55) ∧ (63 ≤ 63 ∧ (56 + 1 + 63) % 64 = 56 ∧ 56 ≤ 56 % 64) ∧
    (List.replicate 56 0x61#8).length = 56 := by decide

theorem witness_PaddedLengthIsTheSmallestMultiple :
    (64 ∣ 64 ∧ (List.replicate 55 0x61#8).length + 9 ≤ 64) ∧ (List.replicate 55 0x61#8).length ≤ 55 ∧
    (56 ≤ (List.replicate 63 0x61#8).length ∧ (List.replicate 63 0x61#8).length ≤ 63) := by decide

theorem witness_RoundFunctionsBitByBit : 31 < 32 := by decide

theorem witness_MessageIndexPermutesEachRound :
    (63 : Fin 64).val / 16 = (3 : Fin 4).val ∧ msgIndex 63 = 9 := by decide

theorem witness_CompressRunsBlocksInOrder : [0x00#8].length % 64 ≠ 0 ∧ ([] : List Byte).length % 64 = 0 := by decide

theorem witness_CompressOfAConcatenation : sixtyFourA.toList.length % 64 = 0 := by decide +kernel

/-! ## Witnesses: the commands -/

theorem witness_CompressFoldsTheBuffer :
    (∀ (j : Nat) (h : j < 64), loadedA.buf.read j = some sixtyFourA[j]) ∧ State.reset.buf.read 63 = none := by
  decide +kernel

theorem witness_FinalizeDigestsTheTail :
    63 ≤ 63 ∧ (List.replicate 63 0x61#8).length ≤ 63 ∧
    (∀ (j : Nat) (h : j < (List.replicate 63 0x61#8).length), loadedA.buf.read j = some (List.replicate 63 0x61#8)[j]) ∧
    (62 < 63 ∧ State.reset.buf.read 62 = none) := by decide +kernel

/-- Each of the four ways to be Illegal. -/
theorem witness_IllegalWordReportsTheError :
    4 ≤ (pending 0x00000004#32 0 []).cmdLatch.toNat % 16 ∧
    (pending 0x00000013#32 0 []).cmdLatch.toNat / 2 ^ 4 % 16 ≠ 0 ∧
    (pending 0x00004003#32 0 []).cmdLatch.toNat / 2 ^ 14 ≠ 0 ∧
    ((pending 0x00000102#32 0 []).cmdLatch.toNat / 2 ^ 8 % 64 ≠ 0 ∧
      (pending 0x00000102#32 0 []).cmdLatch.toNat % 16 < 3) := by decide

/-- Each command gives a next state somewhere. -/
theorem witness_CommandsLeaveTheRestUnchanged :
    (∃ t, exec .nop State.reset = .next t) ∧ (∃ t, exec .init State.reset = .next t) ∧
    (∃ t, exec .compress loadedA = .next t) ∧ (∃ t, exec (.finalize 63) loadedA = .next t) :=
  ⟨⟨_, rfl⟩, ⟨_, rfl⟩, ⟨_, execCompress_of_block (s := loadedA) (blk := sixtyFourA) (by decide +kernel)⟩, by
    obtain ⟨w, -, h⟩ := execFinalize_of_tail (n := 63) (s := loadedA) (tail := List.replicate 63 0x61#8) (by decide)
      (by decide +kernel)
    exact ⟨_, h⟩⟩

theorem witness_FinalizeTwiceGivesTheSameDigest :
    ∃ t u, exec (.finalize 10) (loaded helloworld 80#64) = .next t ∧ exec (.finalize 3) t = .next u := by
  obtain ⟨w, -, h⟩ := execFinalize_of_tail (n := 10) (s := loaded helloworld 80#64) (tail := helloworld) (by decide)
    (by decide +kernel)
  obtain ⟨v, -, h'⟩ := execFinalize_of_tail (n := 3) (s := complete (recordDigest w (loaded helloworld 80#64)))
    (tail := helloworld.take 3) (by decide) (show tailOperand 3 (loaded helloworld 80#64) = _ by decide +kernel)
  exact ⟨_, _, h, h'⟩

/-! ## Witnesses: the step -/

theorem witness_StepRunsTheLatchedCommand :
    ((pending 0x00003F03#32 0 [.wait]).fault = none ∧ (pending 0x00003F03#32 0 [.wait]).busy = true ∧
      (pending 0x00003F03#32 0 [.wait]).delay = 0 ∧ decode (pending 0x00003F03#32 0 [.wait]).cmdLatch = .ok (.finalize 63)) ∧
    (pending 0x00000000#32 5 []).program = [] ∧ decodeTableWord 32 0x00003F03 = some (.finalize 63) := by decide

theorem witness_StepRunsTheNextHostOperation :
    ((withProgram [.rst]).fault = none ∧ (withProgram [.rst]).program = .rst :: [] ∧ (withProgram [.rst]).busy = false) ∧
    ((pending 0 1 [.rst]).fault = none ∧ (pending 0 1 [.rst]).program = .rst :: [] ∧ (pending 0 1 [.rst]).delay ≠ 0) ∧
    (State.reset.fault = none ∧ State.reset.busy = false ∧ State.reset.program = []) := by decide

theorem witness_FaultsAreNeverCleared :
    { State.reset with fault := some Fault.accessDenied }.fault = some .accessDenied ∧
    step (pending 0x00000002#32 0 []) = .fault .unwrittenRead :=
  ⟨rfl, eq_fault (by decide +kernel)⟩

theorem witness_EngineTurnComesWhileTheHostWaits :
    (pending 0 3 [.wait]).fault = none ∧ (pending 0 3 [.wait]).busy = true ∧ (pending 0 3 [.wait]).program = .wait :: [] := by
  decide

/-! ## Witnesses: who writes what -/

/-- A CMD write; an engine step; a step that clears BUSY by completion and by reset, and one that sets it. -/
theorem witness_BusyIsWrittenOnlyByIssueCompletionAndReset :
    (∃ t, hostWrite 0x58 4 0#32 State.reset = .ok t) ∧ (∃ t, engineStep (pending 0 0 []) = .next t) ∧
    (∃ t, step (pending 0 0 []) = .next t ∧ (pending 0 0 []).busy ≠ t.busy) ∧
    (∃ t, step (pending 0 1 [.rst]) = .next t ∧ (pending 0 1 [.rst]).busy ≠ t.busy) ∧
    (∃ t, step { State.reset with program := [.write 0x58 4 0] } = .next t ∧ false ≠ t.busy) :=
  ⟨⟨_, rfl⟩, ⟨_, rfl⟩, ⟨_, rfl, by decide⟩, ⟨_, rfl, by decide⟩, ⟨_, rfl, by decide⟩⟩

theorem witness_ErrorFieldsFollowTheLastCommand :
    (∃ t, hostWrite 0x58 4 0#32 State.reset = .ok t) ∧
    (decode (pending 0x00000004#32 0 []).cmdLatch = .error .reservedOpcode ∧
      ∃ t, engineStep (pending 0x00000004#32 0 []) = .next t) ∧
    (State.reset.err = false ∧ State.reset.errCode = 0x0#4 ∧ ∃ t, exec .nop State.reset = .next t) ∧
    ((pending 0x00000004#32 0 []).Inv ∧ ∃ t, step (pending 0x00000004#32 0 []) = .next t) :=
  ⟨⟨_, rfl⟩, ⟨by decide, ⟨_, rfl⟩⟩, ⟨rfl, rfl, ⟨_, rfl⟩⟩, ⟨⟨rfl, rfl, fun _ => rfl, rfl⟩, ⟨_, rfl⟩⟩⟩

/-- DV set by FINALIZE, cleared by reset; a read of DIGEST and of DOUT while it is 0. -/
theorem witness_DvIsWrittenOnlyByFinalizeAndReset :
    (∃ t, exec (.finalize 0) State.reset = .next t) ∧
    (∃ t, step (pending 0x00000003#32 0 []) = .next t ∧ (pending 0x00000003#32 0 []).dv ≠ t.dv) ∧
    (∃ t, step { State.reset with dv := true, program := [.rst] } = .next t ∧ true ≠ t.dv) ∧
    (State.reset.dv = false ∧ State.reset.busy = false ∧ 0x60 ≤ 0x7C ∧ 0x7C < 0x80 ∧ 0x7C % 4 = 0) := by
  refine ⟨exists_next (by decide +kernel), ?_, ⟨_, rfl, by decide⟩, by decide⟩
  obtain ⟨w, -, h⟩ := execFinalize_of_tail (n := 0) (s := pending 0x00000003#32 0 []) (tail := []) (by decide) rfl
  refine ⟨complete (recordDigest w (pending 0x00000003#32 0 [])), ?_, ?_⟩
  · rw [step_engine rfl rfl, engineStep_legal (i := .finalize 0) (by decide)]; exact h
  · simp [pending, State.reset]

/-- A step that changes each of ACC, BUF, BITLEN and DIGEST, by the engine and by the host. -/
theorem witness_RegistersChangeOnlyByTheirWriters :
    (∃ t, step { pending 0x00000001#32 0 [] with acc := ⟨1#32, 2#32, 3#32, 4#32⟩ } = .next t ∧
      t.acc ≠ ⟨1#32, 2#32, 3#32, 4#32⟩) ∧
    (∃ t, step { State.reset with program := [.write 0x4C 4 7] } = .next t ∧ t.acc ≠ State.reset.acc) ∧
    (∃ t, step { State.reset with program := [.write 0x3F 1 7] } = .next t ∧ t.buf ≠ State.reset.buf) ∧
    (∃ t, step { State.reset with program := [.write 0x54 4 7] } = .next t ∧ t.bitLen ≠ State.reset.bitLen) ∧
    (∃ t, step { State.reset with digest := ⟨some 1#32, none, none, none⟩, program := [.rst] } = .next t ∧
      t.digest ≠ ⟨some 1#32, none, none, none⟩) :=
  ⟨⟨_, rfl, by decide⟩, ⟨_, rfl, by decide⟩, ⟨_, rfl, by decide⟩, ⟨_, rfl, by decide +kernel⟩, ⟨_, rfl, by decide⟩⟩

theorem witness_OnlyStatusReadsWhileBusy :
    (∀ op ∈ [HostOp.wait, HostOp.rst, HostOp.read 0x5C 4 ['s']],
      (nextOf (step (pending 0 1 [op]))).isSome = true ∧ (pending 0 1 [op]).busy = true ∧
      nextTurn (pending 0 1 [op]) = .host) := by decide +kernel

theorem witness_EveryStepKeepsTheInvariant :
    (pending 0x00000001#32 0 []).Inv ∧ ∃ t, step (pending 0x00000001#32 0 []) = .next t :=
  ⟨⟨rfl, rfl, fun _ => rfl, rfl⟩, ⟨_, rfl⟩⟩

/-! ## Witnesses: host accesses -/

theorem witness_CmdWriteIssuesTheCommand : State.reset.busy = false ∧ (pending 0 0 []).busy = true := by decide

theorem witness_BufWritesStoreTheirBytes : State.reset.busy = false ∧ 0x3F < 0x40 ∧ 0x3C < 0x40 ∧ 0x3C % 4 = 0 := by decide

theorem witness_MixedWidthAccessesAgree :
    (loadedA.busy = false ∧ 15 < 16 ∧ 3 < 4 ∧ hostRead (4 * 15) 4 loadedA = .ok 0x61616161#32) ∧
    (hostRead (4 * 15) 1 loadedA = .ok ((0x61#8).setWidth 32) ∧ hostRead (4 * 15 + 1) 1 loadedA = .ok ((0x61#8).setWidth 32) ∧
      hostRead (4 * 15 + 2) 1 loadedA = .ok ((0x61#8).setWidth 32) ∧
      hostRead (4 * 15 + 3) 1 loadedA = .ok ((0x61#8).setWidth 32) ∧
      hostRead (4 * 15) 4 loadedA = .ok (bytesToWordLe 0x61#8 0x61#8 0x61#8 0x61#8)) ∧
    (State.reset.busy = false ∧ 0x3F < 0x40 ∧ 0x3E ≠ 0x3F) ∧
    (0x40 ≤ 0x40 ∧ 0x40 < 0x80) ∧ (0x40 ≤ 0x7F ∧ 0x7F < 0x80) := by decide +kernel

theorem witness_AccAndBitLenReadBackWrites : State.reset.busy = false := by decide

theorem witness_DoutViewsTheFormattedDigest :
    (∃ s : State, s.busy = false ∧ s.dv = true ∧ s.digest = ⟨some 1#32, some 2#32, some 3#32, some 4#32⟩) ∧
    (3 < 4 ∧ State.reset.busy = false ∧ State.reset.dv = false) :=
  ⟨⟨{ State.reset with dv := true, digest := ⟨some 1#32, some 2#32, some 3#32, some 4#32⟩ }, rfl, rfl, rfl⟩, by decide⟩

theorem witness_DigestRegistersHoldTheFinalWords : ∃ t, exec (.finalize 10) (loaded helloworld 80#64) = .next t :=
  exists_next (by decide +kernel)

/-- Each clause at a boundary of its range. -/
theorem witness_ReadReportsItsFirstFailingCheck :
    0x80 ≤ 0x80 ∧ (0x3F < 0x40 ∧ 2 ≠ 1 ∧ 2 ≠ 4) ∧ (0x40 ≤ 0x40 ∧ 0x40 < 0x80 ∧ 1 ≠ 4) ∧ (0x7F < 0x80 ∧ 0x7F % 4 ≠ 0) ∧
    ((pending 0 1 []).busy = true ∧ 0x3F < 0x80 ∧ 0x3F ≠ 0x58 ∧ 0x3F ≠ 0x5C ∧ (1 = 1 ∧ 0x3F < 0x40)) ∧
    (0x7C < 0x80 ∧ 0x7C ≠ 0x58 ∧ 0x7C ≠ 0x5C ∧ 0x7C % 4 = 0) ∧
    (State.reset.busy = false ∧ 0x3F < 0x40 ∧ State.reset.buf.read 0x3F = none) ∧
    ((loaded (List.replicate 63 0x61#8) 0#64).busy = false ∧ 0x3C < 0x40 ∧ 0x3C % 4 = 0 ∧ 3 < 4 ∧
      (loaded (List.replicate 63 0x61#8) 0#64).buf.read (0x3C + 3) = none) := by decide +kernel

theorem witness_WriteReportsItsFirstFailingCheck :
    0x80 ≤ 0x80 ∧ (0x3F < 0x40 ∧ 0 ≠ 1 ∧ 0 ≠ 4) ∧ (0x40 ≤ 0x7F ∧ 0x7F < 0x80 ∧ 2 ≠ 4) ∧ (0x5E < 0x80 ∧ 0x5E % 4 ≠ 0) ∧
    (0x5C ≤ 0x5C ∧ 0x5C < 0x80 ∧ 0x5C % 4 = 0) ∧
    ((pending 0 1 []).busy = true ∧ 0x58 < 0x5C ∧ 0x58 % 4 = 0 ∧ 0x3F < 0x5C ∧ 0x3F < 0x40) := by decide

theorem witness_ReadsHaveNoSideEffect :
    (∃ t, hostOp (.read 0x40 4 ['x']) State.reset = .next t) ∧ ∃ t, hostOp (.getdoutEnd ['D']) gettingDout = .next t :=
  ⟨⟨_, rfl⟩, exists_next (by decide +kernel)⟩

theorem witness_ResetSetsEveryRegister : 3 < 4 := by decide

theorem witness_ResetDuringACommand :
    ((pending 0 1 [.rst]).fault = none ∧ (pending 0 1 [.rst]).busy = true ∧ (pending 0 1 [.rst]).program = .rst :: [] ∧
      (pending 0 1 [.rst]).delay ≠ 0) ∧
    ((pending 0 0 [.rst]).fault = none ∧ (pending 0 0 [.rst]).busy = true ∧ (pending 0 0 [.rst]).program = .rst :: [] ∧
      (pending 0 0 [.rst]).delay = 0) := by decide

theorem witness_InstancesShareNothing :
    (∃ sys', stepInstance 1 [State.reset, pending 0 0 []] = some (.next sys')) ∧ 0 ≠ 1 ∧
    ([State.reset, pending 0 0 []][1]? = some (pending 0 0 []) ∧ ∃ t, step (pending 0 0 []) = .next t) ∧
    ([pending 0x00000002#32 0 []][0]? = some (pending 0x00000002#32 0 []) ∧
      ∃ f, step (pending 0x00000002#32 0 []) = .fault f) :=
  ⟨⟨_, rfl⟩, by decide, ⟨rfl, ⟨_, rfl⟩⟩, rfl, ⟨_, eq_fault (k := .unwrittenRead) (by decide +kernel)⟩⟩

/-! ## Witnesses: the driver -/

theorem witness_ConsumeKeepsTheBufferShort : (⟨iv, List.replicate 63 0x61#8, 63#64⟩ : DigestState).buffer.length ≤ 63 := by
  decide

/-- A Digest State of 63 bytes, and an engine that holds it. -/
def held : DigestState := ⟨iv, List.replicate 63 0x61#8, 63#64⟩

theorem witness_FinalizeComputesTheStreamingDigest :
    held.buffer.length ≤ 63 ∧ (loaded held.buffer 504#64).acc = held.acc ∧
    (loaded held.buffer 504#64).bitLen = held.totalLength * 8#64 ∧
    ∀ (j : Nat) (h : j < held.buffer.length), (loaded held.buffer 504#64).buf.read j = some held.buffer[j] := by
  decide +kernel

/-- Five bytes that end at the last byte of BUF, unaligned at their start. -/
def edgeLoad : List HostOp := expandLdbuf 0x3B [0x61#8, 0x62#8, 0x63#8, 0x64#8, 0x65#8] ++ [.wait]

theorem witness_LdbufStoresItsBytes :
    0x3B + [0x61#8, 0x62#8, 0x63#8, 0x64#8, 0x65#8].length ≤ 64 ∧ (withProgram edgeLoad).fault = none ∧
    (withProgram edgeLoad).busy = false ∧
    (withProgram edgeLoad).program =
      expandLdbuf 0x3B [0x61#8, 0x62#8, 0x63#8, 0x64#8, 0x65#8] ++ [.wait] := by decide +kernel

/-- An engine that holds the Digest State, with host operations to come. -/
def holding (ops : List HostOp) : State := { loaded held.buffer 0#64 with program := ops }

/-- The whole sequence from power-on, and the one without its first two steps on an engine that holds the state. -/
theorem witness_DriverReadsTheDigest :
    held.buffer.length ≤ 63 ∧
    ((withProgram (digestProgram ['D'] held ++ [.rst])).fault = none ∧
      (withProgram (digestProgram ['D'] held ++ [.rst])).busy = false ∧
      (withProgram (digestProgram ['D'] held ++ [.rst])).program = digestProgram ['D'] held ++ [.rst]) ∧
    ((holding (heldDigestProgram ['D'] held ++ [.rst])).fault = none ∧
      (holding (heldDigestProgram ['D'] held ++ [.rst])).busy = false ∧
      (holding (heldDigestProgram ['D'] held ++ [.rst])).program = heldDigestProgram ['D'] held ++ [.rst] ∧
      (holding (heldDigestProgram ['D'] held ++ [.rst])).acc = held.acc ∧
      ∀ (j : Nat) (h : j < held.buffer.length),
        (holding (heldDigestProgram ['D'] held ++ [.rst])).buf.read j = some held.buffer[j]) := by decide +kernel

/-- With the accumulator set, and with it held and the tail left in BUF; the tail is 63 bytes long. -/
theorem witness_DriverReadsTheConsumedAccumulator :
    ((withProgram (consumeProgram ⟨false, false⟩ held sixtyFourA.toList ++ [.rst])).fault = none ∧
      (withProgram (consumeProgram ⟨false, false⟩ held sixtyFourA.toList ++ [.rst])).busy = false ∧
      (withProgram (consumeProgram ⟨false, false⟩ held sixtyFourA.toList ++ [.rst])).program =
        consumeProgram ⟨false, false⟩ held sixtyFourA.toList ++ [.rst]) ∧
    ((holding (consumeProgram ⟨true, true⟩ held sixtyFourA.toList ++ [.rst])).fault = none ∧
      (holding (consumeProgram ⟨true, true⟩ held sixtyFourA.toList ++ [.rst])).busy = false ∧
      (holding (consumeProgram ⟨true, true⟩ held sixtyFourA.toList ++ [.rst])).program =
        consumeProgram ⟨true, true⟩ held sixtyFourA.toList ++ [.rst] ∧
      (holding (consumeProgram ⟨true, true⟩ held sixtyFourA.toList ++ [.rst])).acc = held.acc) ∧
    62 < (consume held sixtyFourA.toList).buffer.length :=
  ⟨⟨rfl, rfl, rfl⟩, ⟨rfl, rfl, rfl, rfl⟩, by decide +kernel⟩

theorem witness_ConstantTablesAndRotation : 31 ≤ 31 := by decide

end Sys2Proof.Tests
end

section
/-!
SUPPORT. Reads and writes of the word registers, by register (20_memory.md R55, R56), and what the values read are bit by
bit.
-/
namespace Sys2Proof.Machine

/-! ## An access to a word register -/

/-- Every word register can be reached by a word access. -/
theorem WordReg.accessForm_offset (r : WordReg) : accessForm r.offset 4 = .ok () := by cases r <;> rfl

theorem WordReg.not_offset_lt (r : WordReg) : ¬ r.offset < 0x40 := by cases r <;> decide

theorem WordReg.offset_eq_cmd_iff (r : WordReg) : r.offset = 0x58 ↔ r = .cmd := by cases r <;> decide

/-- A word read of any register but CMD, while BUSY = 0, gives that register's value or its own fault. -/
theorem hostRead_reg {r : WordReg} {s : State} (hb : s.busy = false) (hr : r ≠ .cmd) :
    hostRead r.offset 4 s = readReg r s := by
  have hne : r.offset ≠ 0x58 := fun h => hr (r.offset_eq_cmd_iff.mp h)
  have hchecks := (readChecks_ok_iff r.offset 4 s).mpr ⟨r.accessForm_offset, hne, by simp [hb]⟩
  rw [hostRead_of_ok hchecks, if_neg r.not_offset_lt, wordRegAt_offset]

/-- A word write of a register below STATUS, while BUSY = 0, is the write of that register. -/
theorem hostWrite_reg {r : WordReg} {v : Word} {s : State} (hb : s.busy = false) (hr : r.offset < 0x5C) :
    hostWrite r.offset 4 v s = writeReg r v s := by
  have hchecks := (writeChecks_ok_iff r.offset 4 s).mpr ⟨r.accessForm_offset, hr, hb⟩
  rw [hostWrite_of_ok hchecks, if_neg r.not_offset_lt, wordRegAt_offset]

/-- STATUS, DIGEST and DOUT are read-only, BUSY or not. -/
theorem hostWrite_readOnly {off : Nat} {v : Word} {s : State} (h : 0x5C ≤ off) (h' : off < 0x80) (h4 : off % 4 = 0) :
    hostWrite off 4 v s = .error .accessDenied := by
  have hform : accessForm off 4 = .ok () := (accessForm_ok_iff off 4).mpr ⟨h', .inr ⟨rfl, h4⟩⟩
  exact hostWrite_of_error (by simp [writeChecks, hform, h])

/-- A CMD write that is accepted issues the command. -/
theorem hostWrite_cmd {v : Word} {s t : State} (h : hostWrite 0x58 4 v s = .ok t) : t = issue v s := by
  have hissue : hostWrite 0x58 4 v s = .ok (issue v s) :=
    hostWrite_reg (r := .cmd) (hostWrite_place h).1 (by decide)
  rw [hissue] at h
  simpa using h.symm

/-! ## DIGEST and DOUT -/

theorem readDigest_of_not_dv {s : State} (w : Option Word) (h : s.dv = false) :
    readDigest s w = .error .unwrittenRead := by simp [readDigest, h]

theorem readDout_of_not_dv {s : State} (k : Nat) (h : s.dv = false) : readDout s k = .error .unwrittenRead := by
  simp [readDout, h]

theorem readDigest_some {s : State} (v : Word) (h : s.dv = true) : readDigest s (some v) = .ok v := by
  simp [readDigest, h]

theorem readDout_of_digest {s : State} {a b c d : Word} (k : Nat) (h : s.dv = true)
    (hd : s.digest = ⟨some a, some b, some c, some d⟩) : readDout s k = .ok (doutView k ⟨a, b, c, d⟩) := by
  simp [readDout, digestWords, h, hd]

/-- While DV = 0 no DIGEST or DOUT register holds a value (R31). -/
theorem hostRead_of_not_dv {s : State} {off : Nat} (hdv : s.dv = false) (hb : s.busy = false) (h : 0x60 ≤ off)
    (h' : off < 0x80) (h4 : off % 4 = 0) : hostRead off 4 s = .error .unwrittenRead := by
  obtain ⟨r, hr⟩ := wordRegAt_isSome (by omega) h' h4
  obtain rfl := wordRegAt_eq_some hr
  rw [hostRead_reg hb (by rintro rfl; simp [WordReg.offset] at h)]
  cases r <;> simp [WordReg.offset] at h <;> simp [readReg, readDigest_of_not_dv, readDout_of_not_dv, hdv]

/-- DOUTk is the register at 0x70 + 4k. -/
theorem hostRead_dout {s : State} {k : Nat} (hb : s.busy = false) (hk : k < 4) :
    hostRead (0x70 + 4 * k) 4 s = readDout s k := by
  match k, hk with
  | 0, _ => exact hostRead_reg (r := .dout0) hb (by decide)
  | 1, _ => exact hostRead_reg (r := .dout1) hb (by decide)
  | 2, _ => exact hostRead_reg (r := .dout2) hb (by decide)
  | 3, _ => exact hostRead_reg (r := .dout3) hb (by decide)

theorem doutView_eq_setWidth (k : Nat) (w : Quad Word) : doutView k w = (formatDigest w >>> (32 * k)).setWidth 32 := by
  apply BitVec.eq_of_getLsbD_eq
  intro i hi
  simp [doutView, hi]

/-- Word by word, from the most significant: the formatted digest shows a, b, c, d byte-swapped (R33). -/
theorem doutView_words (w : Quad Word) :
    doutView 3 w = bswap32 w.a ∧ doutView 2 w = bswap32 w.b ∧ doutView 1 w = bswap32 w.c ∧
      doutView 0 w = bswap32 w.d := by
  refine ⟨?_, ?_, ?_, ?_⟩ <;> apply BitVec.eq_of_getLsbD_eq <;> intro i hi <;>
    rw [doutView, BitVec.getLsbD_extractLsb', formatDigest_getLsbD]
  · simp [hi, show ¬ 96 + i < 32 by omega, show ¬ 96 + i < 64 by omega]
  · simp [hi, show ¬ 64 + i < 32 by omega, show 64 + i < 96 by omega]
  · simp [hi, show 32 + i < 64 by omega]
  · simp [hi]

/-! ## The halves of BITLEN (R26) -/

theorem setWidth_eq_lowWord (l : Len64) : l.setWidth 32 = lowWord l := by
  apply BitVec.eq_of_getLsbD_eq
  intro i hi
  simp [lowWord, hi, show i < 64 by omega]

theorem lowWord_shiftRight (l : Len64) : lowWord (l >>> 32) = highWord l := by
  apply BitVec.eq_of_getLsbD_eq
  intro i hi
  simp [lowWord, highWord, hi]

theorem shiftRight_eq_setWidth_highWord (l : Len64) : l >>> 32 = (highWord l).setWidth 64 := by
  apply BitVec.eq_of_getLsbD_eq
  intro i hi
  by_cases h : i < 32
  · simp [highWord, h, hi]
  · simp [highWord, h, BitVec.getLsbD_of_ge l (32 + i) (by omega)]

/-! ## STATUS -/

/-- Each bit of STATUS (R28), over all values of its fields. -/
theorem statusWord_fields (s : State) :
    (statusWord s).getLsbD 0 = s.busy ∧ (statusWord s).getLsbD 1 = s.err ∧ (statusWord s).getLsbD 2 = s.dv ∧
    (statusWord s).getLsbD 3 = false ∧ (statusWord s >>> 4).setWidth 4 = s.errCode ∧ statusWord s >>> 8 = 0#32 := by
  have h : ∀ (code : BitVec 4) (dv err busy : Bool), ∃ v : Word,
      v = (code ++ 0#1 ++ BitVec.ofBool dv ++ BitVec.ofBool err ++ BitVec.ofBool busy : BitVec 8).setWidth 32 ∧
      v.getLsbD 0 = busy ∧ v.getLsbD 1 = err ∧ v.getLsbD 2 = dv ∧ v.getLsbD 3 = false ∧
      (v >>> 4).setWidth 4 = code ∧ v >>> 8 = 0#32 := by
    simp only [exists_eq_left]
    decide
  obtain ⟨v, rfl, hv⟩ := h s.errCode s.dv s.err s.busy
  exact hv

end Sys2Proof.Machine
end

section
/-!
SUPPORT. Which fields each operation of the machine writes, said once per operation, and the three kinds of step: an engine
step, a host step that writes (a host write or a reset), and a step that leaves every register as it was.
-/
namespace Sys2Proof.Machine

/-! ## Unchanged registers -/

/-- The flags and DIGEST stay: the fields the invariant speaks of, beside BUF. -/
structure SameStatus (s t : State) : Prop where
  busy    : t.busy = s.busy
  err     : t.err = s.err
  errCode : t.errCode = s.errCode
  dv      : t.dv = s.dv
  digest  : t.digest = s.digest

/-- Every register the host can see stays. -/
structure SameRegisters (s t : State) : Prop extends SameStatus s t where
  acc    : t.acc = s.acc
  buf    : t.buf = s.buf
  bitLen : t.bitLen = s.bitLen

theorem SameRegisters.refl (s : State) : SameRegisters s s := ⟨⟨rfl, rfl, rfl, rfl, rfl⟩, rfl, rfl, rfl⟩

theorem SameStatus.trans {s t u : State} (h : SameStatus s t) (h' : SameStatus t u) : SameStatus s u :=
  ⟨h'.busy.trans h.busy, h'.err.trans h.err, h'.errCode.trans h.errCode, h'.dv.trans h.dv, h'.digest.trans h.digest⟩

theorem SameRegisters.trans {s t u : State} (h : SameRegisters s t) (h' : SameRegisters t u) : SameRegisters s u :=
  ⟨h.toSameStatus.trans h'.toSameStatus, h'.acc.trans h.acc, h'.buf.trans h.buf, h'.bitLen.trans h.bitLen⟩

theorem sameRegisters_program_delay (s : State) (p : List HostOp) (d : Nat) :
    SameRegisters s { s with program := p, delay := d } := ⟨⟨rfl, rfl, rfl, rfl, rfl⟩, rfl, rfl, rfl⟩

theorem sameRegisters_program (s : State) (p : List HostOp) : SameRegisters s { s with program := p } :=
  ⟨⟨rfl, rfl, rfl, rfl, rfl⟩, rfl, rfl, rfl⟩

theorem sameRegisters_recordRead (name : HostName) (n : Nat) (v : Word) (s : State) :
    SameRegisters s (recordRead name n v s) := ⟨⟨rfl, rfl, rfl, rfl, rfl⟩, rfl, rfl, rfl⟩

theorem sameRegisters_bindJoined (name : HostName) (s : State) : SameRegisters s (bindJoined name s) :=
  ⟨⟨rfl, rfl, rfl, rfl, rfl⟩, rfl, rfl, rfl⟩

/-! ## The engine's step -/

/-- Every completed command, legal or not, ends with BUSY = 0 (R29). -/
theorem engineStep_busy {s t : State} (h : engineStep s = .next t) : t.busy = false := by
  rcases engineStep_cases h with ⟨-, rfl⟩ | ⟨-, rfl⟩ | ⟨-, rfl⟩ | ⟨-, _, -, rfl⟩ | ⟨_, -, -, _, _, -, -, rfl⟩ <;>
    exact complete_busy _

theorem engineStep_bitLen {s t : State} (h : engineStep s = .next t) : t.bitLen = s.bitLen := by
  rcases engineStep_cases h with ⟨-, rfl⟩ | ⟨-, rfl⟩ | ⟨-, rfl⟩ | ⟨-, _, -, rfl⟩ | ⟨_, -, -, _, _, -, -, rfl⟩ <;> simp

/-- Only INIT and COMPRESS write ACC (R23). -/
theorem engineStep_acc {s t : State} (h : engineStep s = .next t) :
    decode s.cmdLatch = .ok .init ∨ decode s.cmdLatch = .ok .compress ∨ t.acc = s.acc := by
  rcases engineStep_cases h with ⟨-, rfl⟩ | ⟨-, rfl⟩ | ⟨hd, -⟩ | ⟨hd, -⟩ | ⟨_, -, -, _, _, -, -, rfl⟩
  · simp
  · simp
  · exact .inl hd
  · exact .inr (.inl hd)
  · simp

/-- Only FINALIZE writes DIGEST and DV (R31, R32), and it sets DV. -/
theorem engineStep_digest {s t : State} (h : engineStep s = .next t) :
    ((∃ n, decode s.cmdLatch = .ok (.finalize n)) ∧ t.dv = true) ∨ (t.dv = s.dv ∧ t.digest = s.digest) := by
  rcases engineStep_cases h with ⟨-, rfl⟩ | ⟨-, rfl⟩ | ⟨-, rfl⟩ | ⟨-, _, -, rfl⟩ | ⟨n, hd, -, _, _, -, -, rfl⟩
  case inr.inr.inr.inr => exact .inl ⟨⟨n, hd⟩, by simp⟩
  all_goals exact .inr ⟨by simp, by simp⟩

/-- No command of the table writes ERR or ERRCODE (R30). -/
theorem exec_errorFields {i : Instr} {s t : State} (h : exec i s = .next t) : t.err = s.err ∧ t.errCode = s.errCode := by
  cases i with
  | nop =>
    obtain rfl : complete s = t := by simpa [exec_nop] using h
    simp
  | init =>
    obtain rfl : complete { s with acc := iv } = t := by simpa [exec_init] using h
    simp
  | compress =>
    obtain ⟨blk, -, rfl⟩ := execCompress_cases h
    simp
  | finalize n =>
    obtain ⟨-, tail, w, -, -, rfl⟩ := execFinalize_cases h
    simp

/-! ## The host's write -/

/-- Of the status fields and DIGEST a host write touches none, unless it is a CMD write. -/
theorem hostWrite_status {off n : Nat} {v : Word} {s t : State} (h : hostWrite off n v s = .ok t) :
    SameStatus s t ∨ (n = 4 ∧ off = 0x58 ∧ t = issue v s) := by
  obtain ⟨-, ⟨-, -, rfl⟩ | ⟨-, -, -, rfl⟩ | ⟨-, -, rfl⟩ | ⟨-, -, rfl⟩ | ⟨-, -, rfl⟩ | ⟨-, -, rfl⟩ | ⟨-, -, rfl⟩ |
    ⟨-, -, rfl⟩ | hcmd⟩ := hostWrite_cases h
  case inr.inr.inr.inr.inr.inr.inr.inr => exact .inr hcmd
  all_goals exact .inl ⟨rfl, rfl, rfl, rfl, rfl⟩

/-- No host write touches DV or DIGEST. -/
theorem hostWrite_digest {off n : Nat} {v : Word} {s t : State} (h : hostWrite off n v s = .ok t) :
    t.dv = s.dv ∧ t.digest = s.digest := by
  obtain hsame | ⟨-, -, rfl⟩ := hostWrite_status h
  · exact ⟨hsame.dv, hsame.digest⟩
  · simp

/-- A host write changes ACC, BUF or BITLEN only at that register's own offsets. -/
theorem hostWrite_data {off n : Nat} {v : Word} {s t : State} (h : hostWrite off n v s = .ok t) :
    (t.acc = s.acc ∨ (n = 4 ∧ (off = 0x40 ∨ off = 0x44 ∨ off = 0x48 ∨ off = 0x4C))) ∧
    (t.buf = s.buf ∨ off < 0x40) ∧
    (t.bitLen = s.bitLen ∨ (n = 4 ∧ (off = 0x50 ∨ off = 0x54))) := by
  obtain ⟨-, ⟨hlt, -, rfl⟩ | ⟨hlt, -, -, rfl⟩ | ⟨rfl, rfl, rfl⟩ | ⟨rfl, rfl, rfl⟩ | ⟨rfl, rfl, rfl⟩ | ⟨rfl, rfl, rfl⟩ |
    ⟨rfl, rfl, rfl⟩ | ⟨rfl, rfl, rfl⟩ | ⟨-, -, rfl⟩⟩ := hostWrite_cases h
  case inl | inr.inl => exact ⟨.inl rfl, .inr hlt, .inl rfl⟩
  all_goals simp

/-! ## The three kinds of step -/

/-- A host operation writes, resets, or leaves every register as it was. -/
theorem hostOp_writes {op : HostOp} {s t : State} (h : hostOp op s = .next t) :
    (∃ off n v, op = .write off n v ∧ hostWrite off n (BitVec.ofNat 32 v) s = .ok t) ∨
    (op = .rst ∧ t = hostReset s) ∨ SameRegisters s t := by
  rcases hostOp_cases h with ⟨_, n, name, v, -, -, rfl⟩ | ⟨off, n, v, hop, -, hw⟩ | hrst | ⟨-, -, rfl⟩ | ⟨-, -, rfl⟩ |
    ⟨name, v, -, -, rfl⟩
  · exact .inr (.inr (sameRegisters_recordRead ..))
  · exact .inl ⟨off, n, v, hop, hw⟩
  · exact .inr (.inl hrst)
  · exact .inr (.inr ((sameRegisters_program ..).trans (sameRegisters_recordRead ..)))
  · exact .inr (.inr (sameRegisters_recordRead ..))
  · exact .inr (.inr ((sameRegisters_recordRead ..).trans (sameRegisters_bindJoined ..)))

/-- What a step that answers a next state was, by what it writes. A host write or a reset starts from `u`, the state with
its operation taken from the program. -/
theorem step_writes {s t : State} (h : step s = .next t) :
    (nextTurn s = .engine ∧ engineStep s = .next t) ∨
    (nextTurn s = .host ∧ ∃ rest off n v u, s.program = .write off n v :: rest ∧ SameRegisters s u ∧
      hostWrite off n (BitVec.ofNat 32 v) u = .ok t) ∨
    (nextTurn s = .host ∧ ∃ rest u, s.program = .rst :: rest ∧ t = hostReset u) ∨
    SameRegisters s t := by
  obtain ⟨-, hengine | ⟨hturn, op, rest, hp, ho⟩ | ⟨-, rfl⟩⟩ := step_cases h
  · exact .inl hengine
  · have hu := sameRegisters_program_delay s rest (s.delay - 1)
    obtain ⟨off, n, v, rfl, hw⟩ | ⟨rfl, ht⟩ | hsame := hostOp_writes ho
    · exact .inr (.inl ⟨hturn, rest, off, n, v, _, hp, hu, hw⟩)
    · exact .inr (.inr (.inl ⟨hturn, rest, _, hp, ht⟩))
    · exact .inr (.inr (.inr (hu.trans hsame)))
  · exact .inr (.inr (.inr (SameRegisters.refl t)))

/-! ## The invariant, operation by operation -/

/-- The invariant speaks of BUF, the flags and DIGEST alone. -/
theorem State.Inv.of_sameStatus {s t : State} (h : s.Inv) (hbuf : t.buf.wf = true) (hsame : SameStatus s t) : t.Inv where
  bufWf := hbuf
  errCode := by rw [hsame.errCode, hsame.err]; exact h.errCode
  busyErr := by rw [hsame.busy, hsame.err]; exact h.busyErr
  digestDv := by rw [hsame.dv, hsame.digest]; exact h.digestDv

theorem State.Inv.of_sameRegisters {s t : State} (h : s.Inv) (hsame : SameRegisters s t) : t.Inv :=
  h.of_sameStatus (hsame.buf ▸ h.bufWf) hsame.toSameStatus

theorem acc_inv {s : State} (h : s.Inv) (w : Quad Word) : ({ s with acc := w } : State).Inv :=
  h.of_sameStatus h.bufWf ⟨rfl, rfl, rfl, rfl, rfl⟩

theorem complete_inv {s : State} (h : s.Inv) : (complete s).Inv where
  bufWf := h.bufWf
  errCode := h.errCode
  busyErr := by simp
  digestDv := h.digestDv

/-- The error is reported as BUSY goes to 0, so that no command in flight has one. -/
theorem complete_raiseHwError_inv {s : State} (h : s.Inv) (e : HwError) : (complete (raiseHwError e s)).Inv where
  bufWf := h.bufWf
  errCode := by cases e; simp [HwError.code]
  busyErr := by simp
  digestDv := h.digestDv

/-- DIGEST and DV are written together. -/
theorem recordDigest_inv {s : State} (h : s.Inv) (w : Quad Word) : (recordDigest w s).Inv where
  bufWf := h.bufWf
  errCode := h.errCode
  busyErr := h.busyErr
  digestDv := by simp [DigestWritten]

/-- BUSY is set as the error fields are cleared. -/
theorem issue_inv {s : State} (h : s.Inv) (v : Word) : (issue v s).Inv where
  bufWf := h.bufWf
  errCode := by simp
  busyErr := by simp
  digestDv := h.digestDv

/-- A reset establishes the invariant, from every state. -/
theorem hostReset_inv (s : State) : (hostReset s).Inv where
  bufWf := rfl
  errCode := by simp
  busyErr := by simp
  digestDv := by simp

theorem engineStep_keeps_inv {s t : State} (hinv : s.Inv) (h : engineStep s = .next t) : t.Inv := by
  rcases engineStep_cases h with ⟨-, rfl⟩ | ⟨-, rfl⟩ | ⟨-, rfl⟩ | ⟨-, blk, -, rfl⟩ | ⟨_, -, -, _, w, -, -, rfl⟩
  · exact complete_raiseHwError_inv hinv _
  · exact complete_inv hinv
  · exact complete_inv (acc_inv hinv iv)
  · exact complete_inv (acc_inv hinv _)
  · exact complete_inv (recordDigest_inv hinv w)

theorem hostWrite_keeps_inv {off n : Nat} {v : Word} {s t : State} (hinv : s.Inv) (h : hostWrite off n v s = .ok t) :
    t.Inv := by
  obtain hsame | ⟨-, -, rfl⟩ := hostWrite_status h
  · exact hinv.of_sameStatus (hostWrite_buf_wf h hinv.bufWf) hsame
  · exact issue_inv hinv v

theorem step_keeps_inv {s t : State} (hinv : s.Inv) (h : step s = .next t) : t.Inv := by
  obtain ⟨-, he⟩ | ⟨-, _, _, _, _, u, -, hu, hw⟩ | ⟨-, _, u, -, rfl⟩ | hsame := step_writes h
  · exact engineStep_keeps_inv hinv he
  · exact hostWrite_keeps_inv (hinv.of_sameRegisters hu) hw
  · exact hostReset_inv u
  · exact hinv.of_sameRegisters hsame

/-- Under the invariant the error fields have two values: no error, or ILLEGAL_COMMAND. -/
theorem State.Inv.errorFields {s : State} (h : s.Inv) :
    (s.err = false ∧ s.errCode = 0x0#4) ∨ (s.err = true ∧ s.errCode = 0x1#4) := by
  have hcode := h.errCode
  cases herr : s.err with
  | false => exact .inl ⟨rfl, by simpa [herr] using hcode⟩
  | true => exact .inr ⟨rfl, by simpa [herr, codeIllegalCommand] using hcode⟩

end Sys2Proof.Machine
end

section
/-!
PROOF. The statements of 10_state.md: the invariant and the writers of each register over every step (O34, O28 to O31), then
what the host reads and writes of STATUS, ACC, BITLEN, DOUT and DIGEST (O35, O39 to O41).
-/
namespace Sys2Proof.Machine

/-! ## Over every step -/

/-- Settles O34, by the three kinds of step. -/
theorem everyStepKeepsTheInvariant : Obligations.EveryStepKeepsTheInvariant := fun _ _ hinv h => step_keeps_inv hinv h

/-- Settles O28: of the steps, an engine step and a reset clear BUSY, a CMD write sets it, and no other host write touches
it. -/
theorem busyIsWrittenOnlyByIssueCompletionAndReset : Obligations.BusyIsWrittenOnlyByIssueCompletionAndReset := by
  refine ⟨fun v s t h => ?_, fun s t h => engineStep_busy h, hostReset_busy, fun s t h hne => ?_⟩
  · rw [hostWrite_cmd h]; exact issue_busy v s
  obtain ⟨hturn, he⟩ | ⟨hturn, rest, off, n, v, u, hp, hu, hw⟩ | ⟨hturn, rest, u, hp, rfl⟩ | hsame := step_writes h
  · exact .inl ⟨hturn, engineStep_busy he⟩
  · obtain hsame | ⟨rfl, rfl, rfl⟩ := hostWrite_status hw
    · exact absurd (hsame.busy.trans hu.busy).symm hne
    · exact .inr ⟨hturn, rest, .inr ⟨v, hp, issue_busy _ u⟩⟩
  · exact .inr ⟨hturn, rest, .inl ⟨hp, hostReset_busy u⟩⟩
  · exact absurd hsame.busy.symm hne

/-- Settles O29: issue and reset clear the error fields, an Illegal word's step sets them, no other command writes them; the
last clause is read off the invariant. -/
theorem errorFieldsFollowTheLastCommand : Obligations.ErrorFieldsFollowTheLastCommand := by
  refine ⟨fun v s t h => ?_, fun why s t hd h => ?_, fun i s t herr hcode h => ?_, fun s => ?_, fun s t hinv h => ?_⟩
  · rw [hostWrite_cmd h]; exact ⟨issue_busy v s, issue_err v s, issue_errCode v s⟩
  · obtain rfl : complete (raiseHwError .illegalCommand s) = t := by simpa [engineStep_illegal hd] using h
    exact ⟨by simp, by simp [HwError.code, codeIllegalCommand]⟩
  · obtain ⟨herr', hcode'⟩ := exec_errorFields h
    exact ⟨herr'.trans herr, hcode'.trans hcode⟩
  · exact ⟨hostReset_err s, hostReset_errCode s⟩
  · exact (step_keeps_inv hinv h).errorFields

/-- Settles O30: of the steps, a FINALIZE sets DV, a reset clears it, and no host write touches it. -/
theorem dvIsWrittenOnlyByFinalizeAndReset : Obligations.DvIsWrittenOnlyByFinalizeAndReset := by
  refine ⟨hostReset_dv, fun n s t h => ?_, fun s t h hne => ?_, fun s hdv hb off hlo hhi h4 => ?_⟩
  · obtain ⟨-, tail, w, -, -, rfl⟩ := execFinalize_cases h
    simp
  · obtain ⟨hturn, he⟩ | ⟨hturn, rest, off, n, v, u, hp, hu, hw⟩ | ⟨hturn, rest, u, hp, rfl⟩ | hsame := step_writes h
    · obtain ⟨hd, hdv⟩ | ⟨hdv, -⟩ := engineStep_digest he
      · exact .inl ⟨hturn, hdv, hd⟩
      · exact absurd hdv.symm hne
    · exact absurd ((hostWrite_digest hw).1.trans hu.dv).symm hne
    · exact .inr ⟨hturn, hostReset_dv u, rest, hp⟩
    · exact absurd hsame.dv.symm hne
  · exact hostRead_of_not_dv hdv hb hlo hhi h4

/-- Settles O31: an engine step writes ACC or DIGEST by its command alone, a host write the register at its offset, a reset
all of them. -/
theorem registersChangeOnlyByTheirWriters : Obligations.RegistersChangeOnlyByTheirWriters := by
  intro s t h
  obtain ⟨hturn, he⟩ | ⟨hturn, rest, off, n, v, u, hp, hu, hw⟩ | ⟨hturn, rest, u, hp, -⟩ | hsame := step_writes h
  · refine ⟨fun hne => .inl ⟨hturn, ?_⟩, fun hne => absurd (engineStep_buf he) hne,
      fun hne => absurd (engineStep_bitLen he) hne, fun hne => .inl ⟨hturn, ?_⟩⟩
    · obtain hd | hd | hacc := engineStep_acc he
      · exact .inl hd
      · exact .inr hd
      · exact absurd hacc hne
    · obtain ⟨hd, -⟩ | ⟨-, hdig⟩ := engineStep_digest he
      · exact hd
      · exact absurd hdig hne
  · obtain ⟨hacc, hbuf, hlen⟩ := hostWrite_data hw
    rw [hu.acc] at hacc
    rw [hu.buf] at hbuf
    rw [hu.bitLen] at hlen
    refine ⟨fun hne => .inr ⟨hturn, rest, .inr ?_⟩, fun hne => ⟨hturn, rest, .inr ?_⟩,
      fun hne => ⟨hturn, rest, .inr ?_⟩, fun hne => absurd ((hostWrite_digest hw).2.trans hu.digest) hne⟩
    · obtain ⟨rfl, hoff⟩ := hacc.resolve_left hne
      exact ⟨off, v, hp, hoff⟩
    · exact ⟨off, n, v, hp, hbuf.resolve_left hne⟩
    · obtain ⟨rfl, hoff⟩ := hlen.resolve_left hne
      exact ⟨off, v, hp, hoff⟩
  · exact ⟨fun _ => .inr ⟨hturn, rest, .inl hp⟩, fun _ => ⟨hturn, rest, .inl hp⟩, fun _ => ⟨hturn, rest, .inl hp⟩,
      fun _ => .inr ⟨hturn, rest, hp⟩⟩
  · exact ⟨fun hne => absurd hsame.acc hne, fun hne => absurd hsame.buf hne, fun hne => absurd hsame.bitLen hne,
      fun hne => absurd hsame.digest hne⟩

/-! ## Single accesses -/

/-- Settles O35: STATUS is read in every state, and its fields stand where R28 puts them. -/
theorem statusRegisterLayout : Obligations.StatusRegisterLayout := by
  intro s
  obtain ⟨hbusy, herr, hdv, hres, hcode, habove⟩ := statusWord_fields s
  refine ⟨statusWord s, hostRead_status s, hbusy, herr, hdv, hres, hcode, habove, rfl, fun u => ?_, ?_⟩
  · exact hostWrite_readOnly (by decide) (by decide) (by decide)
  · rw [hostRead_status]; rfl

/-- Settles O39: a write of a word register is `writeReg`, a read is `readReg`; the halves of BITLEN are its low and high
words. -/
theorem accAndBitLenReadBackWrites : Obligations.AccAndBitLenReadBackWrites := by
  intro s v hb
  simp only [setWidth_eq_lowWord, lowWord_shiftRight]
  refine ⟨⟨?_, ?_⟩, ⟨?_, ?_⟩, ⟨?_, ?_⟩, ⟨?_, ?_⟩, ?_, ?_, ?_, ?_⟩
  · exact hostWrite_reg (r := .accA) hb (by decide)
  · exact hostRead_reg (r := .accA) hb (by decide)
  · exact hostWrite_reg (r := .accB) hb (by decide)
  · exact hostRead_reg (r := .accB) hb (by decide)
  · exact hostWrite_reg (r := .accC) hb (by decide)
  · exact hostRead_reg (r := .accC) hb (by decide)
  · exact hostWrite_reg (r := .accD) hb (by decide)
  · exact hostRead_reg (r := .accD) hb (by decide)
  · exact ⟨_, hostWrite_reg (r := .bitLenLo) hb (by decide), by simp, by simp [shiftRight_eq_setWidth_highWord]⟩
  · exact ⟨_, hostWrite_reg (r := .bitLenHi) hb (by decide), by simp, by simp⟩
  · exact hostRead_reg (r := .bitLenLo) hb (by decide)
  · exact hostRead_reg (r := .bitLenHi) hb (by decide)

/-- Settles O40: DOUTk reads as its view of the formatted digest. -/
theorem doutViewsTheFormattedDigest : Obligations.DoutViewsTheFormattedDigest := by
  refine ⟨fun s a b c d hb hdv hdig => ?_, fun s k hk hb hdv => ?_, fun s k v hk => ?_⟩
  · have hview : ∀ k, k < 4 → hostRead (0x70 + 4 * k) 4 s = .ok (doutView k ⟨a, b, c, d⟩) := fun k hk =>
      (hostRead_dout hb hk).trans (readDout_of_digest k hdv hdig)
    obtain ⟨ha, hb', hc, hd⟩ := doutView_words ⟨a, b, c, d⟩
    refine ⟨ha ▸ hview 3 (by decide), hb' ▸ hview 2 (by decide), hc ▸ hview 1 (by decide), hd ▸ hview 0 (by decide),
      fun k hk => ?_⟩
    rw [hview k hk, doutView_eq_setWidth]
  · exact hostRead_of_not_dv hdv hb (by omega) (by omega) (by omega)
  · exact hostWrite_readOnly (by omega) (by omega) (by omega)

/-- Settles O41: FINALIZE records the core's words, and a DIGEST register reads as the word recorded. -/
theorem digestRegistersHoldTheFinalWords : Obligations.DigestRegistersHoldTheFinalWords := by
  intro n s t h
  obtain ⟨-, tail, w, htail, hw, rfl⟩ := execFinalize_cases h
  obtain ⟨hlen, hbytes⟩ := (tailOperand_eq_some_iff n s tail).mp htail
  have hb : (complete (recordDigest w s)).busy = false := complete_busy _
  have hdv : (complete (recordDigest w s)).dv = true := by simp
  refine ⟨tail, w, hlen, hbytes, hw, ?_, ?_, ?_, ?_, fun v => ?_⟩
  · exact (hostRead_reg (r := .digestA) hb (by decide)).trans (readDigest_some w.a hdv)
  · exact (hostRead_reg (r := .digestB) hb (by decide)).trans (readDigest_some w.b hdv)
  · exact (hostRead_reg (r := .digestC) hb (by decide)).trans (readDigest_some w.c hdv)
  · exact (hostRead_reg (r := .digestD) hb (by decide)).trans (readDigest_some w.d hdv)
  · exact hostWrite_readOnly (by decide) (by decide) (by decide)

end Sys2Proof.Machine
end

section
/-!
SUPPORT. Accesses to the register window check by check (20_memory.md R55, R56): the fault each failing check gives, and
which registers a read looks at.
-/
namespace Sys2Proof.Machine

/-! ## The form of an access -/

theorem accessForm_unmapped {off : Nat} (n : Nat) (h : 0x80 ≤ off) : accessForm off n = .error .unmappedAccess := by
  simp [accessForm, h]

/-- Width 4 is one of the whole window, width 1 one of BUF; no access has another. -/
theorem accessForm_width {off n : Nat} (h : off < 0x80) (h4 : n ≠ 4) (h1 : off < 0x40 → n ≠ 1) :
    accessForm off n = .error .unsupportedWidth := by
  unfold accessForm
  rw [if_neg (by omega)]
  by_cases hbuf : off < 0x40
  · rw [if_pos ⟨hbuf, h1 hbuf, h4⟩]
  · rw [if_neg (fun hb => hbuf hb.1), if_pos ⟨by omega, h4⟩]

theorem accessForm_misaligned {off : Nat} (h : off < 0x80) (h4 : off % 4 ≠ 0) :
    accessForm off 4 = .error .misalignedAccess := by
  simp [accessForm, show ¬ 0x80 ≤ off by omega, h4]

theorem hostRead_of_formError {off n : Nat} {k : Fault} (s : State) (h : accessForm off n = .error k) :
    hostRead off n s = .error k := hostRead_of_error (by simp [readChecks, h])

theorem hostWrite_of_formError {off n : Nat} {k : Fault} (v : Word) (s : State) (h : accessForm off n = .error k) :
    hostWrite off n v s = .error k := hostWrite_of_error (by simp [writeChecks, h])

/-! ## Rights and BUSY -/

/-- CMD is write-only, BUSY or not. -/
theorem hostRead_cmd (s : State) : hostRead 0x58 4 s = .error .accessDenied := by
  have hform : accessForm 0x58 4 = .ok () := (accessForm_ok_iff _ _).mpr (by decide)
  exact hostRead_of_error (by simp [readChecks, hform])

theorem hostRead_busy {off n : Nat} {s : State} (hform : accessForm off n = .ok ()) (hb : s.busy = true)
    (hcmd : off ≠ 0x58) (hstatus : off ≠ 0x5C) : hostRead off n s = .error .hostAccessWhileBusy :=
  hostRead_of_error (by simp [readChecks, hform, hb, hcmd, hstatus])

theorem hostWrite_busy {off n : Nat} {s : State} (v : Word) (hform : accessForm off n = .ok ()) (hb : s.busy = true)
    (hoff : off < 0x5C) : hostWrite off n v s = .error .hostAccessWhileBusy :=
  hostWrite_of_error (by simp [writeChecks, hform, hb, show ¬ 0x5C ≤ off by omega])

theorem readChecks_of_hostRead_ok {off n : Nat} {s : State} {v : Word} (h : hostRead off n s = .ok v) :
    readChecks off n s = .ok () := by
  cases hc : readChecks off n s with
  | ok => rfl
  | error k => simp [hostRead_of_error hc] at h

/-- While BUSY = 1 the host reads STATUS and nothing else (R61, R245). -/
theorem hostRead_ok_of_busy {off n : Nat} {s : State} {v : Word} (h : hostRead off n s = .ok v) (hb : s.busy = true) :
    off = 0x5C ∧ n = 4 := by
  obtain ⟨hform, -, hstatus⟩ := (readChecks_ok_iff off n s).mp (readChecks_of_hostRead_ok h)
  obtain ⟨-, hw⟩ := (accessForm_ok_iff off n).mp hform
  have hoff := hstatus hb
  exact ⟨hoff, by omega⟩

/-! ## What a read looks at -/

theorem readReg_of_sameRegisters {s t : State} (h : SameRegisters s t) (r : WordReg) : readReg r t = readReg r s := by
  cases r <;> simp [readReg, readDigest, readDout, digestWords, statusWord, h.acc, h.bitLen, h.busy, h.err, h.errCode,
    h.dv, h.digest]

/-- A read depends on the registers alone: not on CMDLATCH, FAULT or the host's own side. -/
theorem hostRead_of_sameRegisters {s t : State} (h : SameRegisters s t) (off n : Nat) :
    hostRead off n t = hostRead off n s := by
  simp only [hostRead, readChecks, readBuf, h.busy, h.buf, readReg_of_sameRegisters h]

end Sys2Proof.Machine
end

section
/-!
SUPPORT. Byte and word accesses to BUF in terms of its bytes (20_memory.md R54 to R56, R60).
-/
namespace Sys2Proof.Machine

/-! ## Bytes of a word -/

theorem byteOf_eq_setWidth (v : Word) (k : Nat) : byteOf v k = (v >>> (8 * k)).setWidth 8 := by
  apply BitVec.eq_of_getLsbD_eq
  intro i hi
  simp [byteOf, hi]

theorem lowByteMask_getLsbD (i : Nat) : (0xFF#32).getLsbD i = decide (i < 8) := by
  rw [BitVec.getLsbD_ofNat, show 0xFF = 2 ^ 8 - 1 by rfl, Nat.testBit_two_pow_sub_one]
  simp; omega

/-- A byte of a word, zero-extended, as R60 writes it. -/
theorem setWidth_byteOf (v : Word) (k : Nat) : (byteOf v k).setWidth 32 = (v >>> (8 * k)) &&& 0xFF#32 := by
  apply BitVec.eq_of_getLsbD_eq
  intro i hi
  rw [BitVec.getLsbD_and, lowByteMask_getLsbD, BitVec.getLsbD_setWidth, byteOf, BitVec.getLsbD_extractLsb',
    BitVec.getLsbD_ushiftRight]
  simp [hi, Bool.and_comm]

/-- The four bytes put together are the word's bytes, least significant first. -/
theorem eq_bytesToWordLe_iff (w : Word) (y0 y1 y2 y3 : Byte) :
    w = bytesToWordLe y0 y1 y2 y3 ↔ byteOf w 0 = y0 ∧ byteOf w 1 = y1 ∧ byteOf w 2 = y2 ∧ byteOf w 3 = y3 := by
  constructor
  · rintro rfl
    refine ⟨?_, ?_, ?_, ?_⟩ <;> apply BitVec.eq_of_getLsbD_eq <;> intro i hi <;>
      rw [byteOf_getLsbD _ _ _ hi, bytesToWordLe_getLsbD _ _ _ _ _ (by omega)]
    · simp [hi]
    · simp [show 8 + i < 16 by omega]
    · simp [show ¬ 16 + i < 8 by omega, show 16 + i < 24 by omega]
    · simp [show ¬ 24 + i < 8 by omega, show ¬ 24 + i < 16 by omega]
  · rintro ⟨rfl, rfl, rfl, rfl⟩
    apply BitVec.eq_of_getLsbD_eq
    intro i hi
    rw [bytesToWordLe_getLsbD _ _ _ _ _ hi]
    split_ifs with h0 h1 h2
    · rw [byteOf_getLsbD _ _ _ h0, Nat.mul_zero, Nat.zero_add]
    · rw [byteOf_getLsbD _ _ _ (by omega), show 8 * 1 + (i - 8) = i by omega]
    · rw [byteOf_getLsbD _ _ _ (by omega), show 8 * 2 + (i - 16) = i by omega]
    · rw [byteOf_getLsbD _ _ _ (by omega), show 8 * 3 + (i - 24) = i by omega]

theorem byteOf_zero (v : Word) : byteOf v 0 = v.setWidth 8 := by simp [byteOf_eq_setWidth]

/-- Replacing the bits of byte `j` replaces that byte and no other. -/
theorem byteOf_replaceByte (w v : Word) {i j : Nat} (hi : i < 4) :
    byteOf ((w &&& ~~~(0xFF#32 <<< (8 * j))) ||| ((v &&& 0xFF#32) <<< (8 * j))) i =
      if i = j then byteOf v 0 else byteOf w i := by
  apply BitVec.eq_of_getLsbD_eq
  intro q hq
  rw [byteOf_getLsbD _ _ _ hq]
  simp only [BitVec.getLsbD_or, BitVec.getLsbD_and, BitVec.getLsbD_not, BitVec.getLsbD_shiftLeft, lowByteMask_getLsbD,
    show 8 * i + q < 32 by omega]
  obtain hlt | rfl | hgt := Nat.lt_trichotomy i j
  · simp [hlt.ne, byteOf_getLsbD _ _ _ hq, show 8 * i + q < 8 * j by omega]
  · rw [if_pos rfl, byteOf_getLsbD _ _ _ hq]
    simp [hq]
  · simp [hgt.ne', byteOf_getLsbD _ _ _ hq, show ¬ 8 * i + q < 8 * j by omega, show ¬ 8 * i + q - 8 * j < 8 by omega]

theorem forall_lt_four_iff (p : Nat → Prop) : (∀ j, j < 4 → p j) ↔ p 0 ∧ p 1 ∧ p 2 ∧ p 3 := by
  simp only [Nat.forall_lt_succ_right, Nat.not_lt_zero, false_implies, implies_true, true_and, and_assoc]

/-- A word is read exactly where its four bytes are. -/
theorem Memory.readWord_eq_some_iff (m : Memory) (off : Nat) (w : Word) :
    m.readWord off = some w ↔ ∀ j, j < 4 → m.read (off + j) = some (byteOf w j) := by
  rw [forall_lt_four_iff, Nat.add_zero]
  unfold Memory.readWord
  split
  · next y0 y1 y2 y3 h0 h1 h2 h3 =>
    rw [h0, h1, h2, h3, Option.some.injEq, eq_comm, eq_bytesToWordLe_iff]
    simp only [Option.some.injEq, eq_comm]
  · next hnone =>
    simp only [reduceCtorEq, false_iff]
    rintro ⟨h0, h1, h2, h3⟩
    exact hnone _ _ _ _ h0 h1 h2 h3

/-! ## Accesses -/

theorem accessForm_buf {off n : Nat} (h : off < 0x40) (hn : n = 1 ∨ n = 4 ∧ off % 4 = 0) : accessForm off n = .ok () :=
  (accessForm_ok_iff off n).mpr ⟨by omega, by omega⟩

theorem hostRead_buf {off n : Nat} {s : State} (hb : s.busy = false) (h : off < 0x40) (hn : n = 1 ∨ n = 4 ∧ off % 4 = 0) :
    hostRead off n s = readBuf off n s := by
  have hchecks := (readChecks_ok_iff off n s).mpr ⟨accessForm_buf h hn, by omega, by simp [hb]⟩
  rw [hostRead_of_ok hchecks, if_pos h]

theorem hostWrite_buf_eq {off n : Nat} {s : State} (v : Word) (hb : s.busy = false) (h : off < 0x40)
    (hn : n = 1 ∨ n = 4 ∧ off % 4 = 0) : hostWrite off n v s = .ok (writeBuf off n v s) := by
  have hchecks := (writeChecks_ok_iff off n s).mpr ⟨accessForm_buf h hn, by omega, hb⟩
  rw [hostWrite_of_ok hchecks, if_pos h]

theorem hostWrite_byte {off : Nat} {s : State} (v : Word) (hb : s.busy = false) (h : off < 0x40) :
    hostWrite off 1 v s = .ok { s with buf := s.buf.write off (byteOf v 0) } :=
  hostWrite_buf_eq v hb h (.inl rfl)

theorem hostWrite_word {off : Nat} {s : State} (v : Word) (hb : s.busy = false) (h : off < 0x40) (h4 : off % 4 = 0) :
    hostWrite off 4 v s = .ok { s with buf := s.buf.writeWord off v } :=
  hostWrite_buf_eq v hb h (.inr ⟨rfl, h4⟩)

theorem hostRead_byte_ok_iff {off : Nat} {s : State} (hb : s.busy = false) (h : off < 0x40) (y : Byte) :
    hostRead off 1 s = .ok (y.setWidth 32) ↔ s.buf.read off = some y := by
  rw [hostRead_buf hb h (.inl rfl), readBuf, if_pos rfl]
  cases s.buf.read off with
  | none => simp
  | some b =>
    rw [Except.ok.injEq, Option.some.injEq]
    exact ⟨fun heq => by simpa using congrArg (BitVec.setWidth 8) heq, congrArg _⟩

/-- A byte read gives the bits of byte `j` of a word exactly where that byte is stored. -/
theorem hostRead_byteOf_ok_iff {off : Nat} {s : State} (hb : s.busy = false) (h : off < 0x40) (w : Word) (j : Nat) :
    hostRead off 1 s = .ok ((w >>> (8 * j)) &&& 0xFF#32) ↔ s.buf.read off = some (byteOf w j) := by
  rw [← setWidth_byteOf, hostRead_byte_ok_iff hb h]

theorem hostRead_word_ok_iff {off : Nat} {s : State} (hb : s.busy = false) (h : off < 0x40) (h4 : off % 4 = 0) (w : Word) :
    hostRead off 4 s = .ok w ↔ ∀ j, j < 4 → s.buf.read (off + j) = some (byteOf w j) := by
  rw [← Memory.readWord_eq_some_iff, hostRead_buf hb h (.inr ⟨rfl, h4⟩), readBuf, if_neg (by decide)]
  cases s.buf.readWord off <;> simp

/-- A byte read depends on no other byte of BUF, and above BUF it faults whatever is stored. -/
theorem hostRead_byte_of_read_eq (s : State) {m : Memory} {a : Nat} (h : m.read a = s.buf.read a) :
    hostRead a 1 { s with buf := m } = hostRead a 1 s := by
  by_cases hbuf : a < 0x40
  · simp only [hostRead, readChecks, readBuf, hbuf, if_true, h]
  · have hform : ∃ k, accessForm a 1 = .error k := by
      by_cases hmap : a < 0x80
      · exact ⟨_, accessForm_width hmap (by decide) fun hlt => absurd hlt hbuf⟩
      · exact ⟨_, accessForm_unmapped 1 (by omega)⟩
    obtain ⟨k, hk⟩ := hform
    rw [hostRead_of_formError _ hk, hostRead_of_formError _ hk]

theorem hostRead_byte_unwritten {off : Nat} {s : State} (hb : s.busy = false) (h : off < 0x40)
    (hnone : s.buf.read off = none) : hostRead off 1 s = .error .unwrittenRead := by
  simp [hostRead_buf hb h (.inl rfl), readBuf, hnone]

theorem hostRead_word_unwritten {off j : Nat} {s : State} (hb : s.busy = false) (h : off < 0x40) (h4 : off % 4 = 0)
    (hj : j < 4) (hnone : s.buf.read (off + j) = none) : hostRead off 4 s = .error .unwrittenRead := by
  rw [hostRead_buf hb h (.inr ⟨rfl, h4⟩), readBuf, if_neg (by decide)]
  cases hw : s.buf.readWord off with
  | none => rfl
  | some w => simp [(s.buf.readWord_eq_some_iff off w).mp hw j hj] at hnone

/-! ## A write read back at the other width (R60) -/

theorem busy_buf_update {s : State} (hb : s.busy = false) (m : Memory) : ({ s with buf := m } : State).busy = false := hb

theorem hostRead_byte_of_word {off j : Nat} {s : State} {w : Word} (hb : s.busy = false) (h : off < 0x40)
    (h4 : off % 4 = 0) (hj : j < 4) (hw : hostRead off 4 s = .ok w) :
    hostRead (off + j) 1 s = .ok ((w >>> (8 * j)) &&& 0xFF#32) :=
  (hostRead_byteOf_ok_iff hb (by omega) w j).mpr ((hostRead_word_ok_iff hb h h4 w).mp hw j hj)

theorem hostRead_word_writeWord {off : Nat} {s : State} (v : Word) (hb : s.busy = false) (h : off < 0x40)
    (h4 : off % 4 = 0) : hostRead off 4 { s with buf := s.buf.writeWord off v } = .ok v := by
  rw [hostRead_word_ok_iff (busy_buf_update hb _) h h4]
  intro i hi
  rw [Memory.read_writeWord, if_pos (by omega), Nat.add_sub_cancel_left]

theorem hostRead_byte_write {off : Nat} {s : State} (v : Word) (hb : s.busy = false) (h : off < 0x40) :
    hostRead off 1 { s with buf := s.buf.write off (byteOf v 0) } = .ok (v &&& 0xFF#32) := by
  have hlow : v &&& 0xFF#32 = (v >>> (8 * 0)) &&& 0xFF#32 := by simp
  rw [hlow, hostRead_byteOf_ok_iff (busy_buf_update hb _) h]
  exact Memory.read_write_same _ _ _

/-- A byte write replaces exactly its bits of the word. -/
theorem hostRead_word_write {off j : Nat} {s : State} {w : Word} (v : Word) (hb : s.busy = false) (h : off < 0x40)
    (h4 : off % 4 = 0) (hw : hostRead off 4 s = .ok w) :
    hostRead off 4 { s with buf := s.buf.write (off + j) (byteOf v 0) } =
      .ok ((w &&& ~~~(0xFF#32 <<< (8 * j))) ||| ((v &&& 0xFF#32) <<< (8 * j))) := by
  rw [hostRead_word_ok_iff hb h h4] at hw
  rw [hostRead_word_ok_iff (busy_buf_update hb _) h h4]
  intro i hi
  rw [Memory.read_write, byteOf_replaceByte w v hi, hw i hi]
  simp only [Nat.add_left_cancel_iff, apply_ite some]

end Sys2Proof.Machine
end

section
/-!
SUPPORT. A step of one engine among several (20_memory.md R66).
-/
namespace Sys2Proof.Machine

theorem stepInstance_next {k : Nat} {sys : List State} {s t : State} (hk : sys[k]? = some s) (h : step s = .next t) :
    stepInstance k sys = some (.next (stepInstanceState k sys)) := by
  have hstate : stepState s = t := by simp [stepState, h, recordOutcome]
  have hset : stepInstanceState k sys = sys.set k t := by
    simp [stepInstanceState, List.modify_eq_set_getElem?, hk, hstate]
  simp [stepInstance, hk, h, hset]

theorem stepInstance_fault {k : Nat} {sys : List State} {s : State} {f : Fault} (hk : sys[k]? = some s)
    (h : step s = .fault f) : stepInstance k sys = some (.fault f) := by simp [stepInstance, hk, h]

/-- A step that answers next states is that engine's own step, and the states are those of the recorded step. -/
theorem stepInstance_cases {k : Nat} {sys sys' : List State} (h : stepInstance k sys = some (.next sys')) :
    ∃ s t, sys[k]? = some s ∧ step s = .next t ∧ sys' = stepInstanceState k sys := by
  cases hk : sys[k]? with
  | none => simp [stepInstance, hk] at h
  | some s =>
    cases hs : step s with
    | next t =>
      rw [stepInstance_next hk hs] at h
      exact ⟨s, t, rfl, hs, by simpa using h.symm⟩
    | fault f => simp [stepInstance, hk, hs] at h
    | refused r => simp [stepInstance, hk, hs] at h

theorem stepInstanceState_length (k : Nat) (sys : List State) : (stepInstanceState k sys).length = sys.length :=
  List.length_modify ..

theorem stepInstanceState_same (k : Nat) (sys : List State) : (stepInstanceState k sys)[k]? = sys[k]?.map stepState :=
  List.getElem?_modify_eq ..

theorem stepInstanceState_other {j k : Nat} (sys : List State) (h : j ≠ k) :
    (stepInstanceState k sys)[j]? = sys[j]? := List.getElem?_modify_ne _ _ h.symm

theorem stepInstanceState_comm {j k : Nat} (sys : List State) (h : j ≠ k) :
    stepInstanceState j (stepInstanceState k sys) = stepInstanceState k (stepInstanceState j sys) :=
  List.modify_modify_ne _ _ _ h.symm

end Sys2Proof.Machine
end

section
/-!
PROOF. The statements of 20_memory.md: the order of steps (O25, O32), the checks of an access (O42, O43), BUF (O37, O38),
reads (O44) and several engines (O47).
-/
namespace Sys2Proof.Machine

/-! ## The order of steps -/

/-- Settles O25: the turn is the host's, or no one's. -/
theorem stepRunsTheNextHostOperation : Obligations.StepRunsTheNextHostOperation := by
  refine ⟨fun s op rest hf hp hor => ?_, fun s hf hb hp => ?_⟩
  · have hturn : nextTurn s = .host :=
      (nextTurn_host_iff s).mpr ⟨by simp [hp], fun hb => hor.resolve_left (by simp [hb])⟩
    exact step_host hf hturn hp
  · exact step_idle hf ((nextTurn_idle_iff s).mpr ⟨hb, hp⟩)

/-- Settles O32: a write is accepted only with BUSY = 0, and a busy engine answers only reads of STATUS. -/
theorem onlyStatusReadsWhileBusy : Obligations.OnlyStatusReadsWhileBusy := by
  intro s t h hb hturn
  obtain ⟨-, ⟨hengine, -⟩ | ⟨-, op, rest, hp, ho⟩ | ⟨hidle, -⟩⟩ := step_cases h
  · simp [hturn] at hengine
  · refine ⟨rest, ?_⟩
    obtain ⟨off, n, name, v, rfl, hv, -⟩ | ⟨off, n, v, -, -, hw⟩ | ⟨rfl, -⟩ | ⟨rfl, -⟩ | ⟨rfl, -⟩ | ⟨name, v, -, hv, -⟩ :=
      hostOp_cases ho
    · obtain ⟨rfl, rfl⟩ := hostRead_ok_of_busy hv hb
      exact .inr (.inr ⟨name, hp⟩)
    · have hready : s.busy = false := (hostWrite_place hw).1
      simp [hb] at hready
    · exact .inr (.inl hp)
    · exact .inl hp
    · exact .inl hp
    · exact absurd (hostRead_ok_of_busy hv hb).1 (by decide)
  · simp [hturn] at hidle

/-! ## The checks of an access -/

/-- Settles O42, check by check. -/
theorem readReportsItsFirstFailingCheck : Obligations.ReadReportsItsFirstFailingCheck := by
  intro s off n
  refine ⟨fun h => ?_, fun h h1 h4 => ?_, fun h h' h4 => ?_, ?_, ?_, fun hb h hcmd hstatus hform => ?_, ?_, ?_⟩
  · exact hostRead_of_formError s (accessForm_unmapped n h)
  · exact hostRead_of_formError s (accessForm_width (by omega) h4 fun _ => h1)
  · exact hostRead_of_formError s (accessForm_width h' h4 fun hlt => by omega)
  · rintro h rfl h4
    exact hostRead_of_formError s (accessForm_misaligned h h4)
  · rintro rfl rfl
    exact hostRead_cmd s
  · exact hostRead_busy ((accessForm_ok_iff off n).mpr ⟨h, by omega⟩) hb hcmd hstatus
  · rintro hb h rfl hnone
    exact hostRead_byte_unwritten hb h hnone
  · rintro hb h rfl h4 j hj hnone
    exact hostRead_word_unwritten hb h h4 hj hnone

/-- Settles O43, check by check. -/
theorem writeReportsItsFirstFailingCheck : Obligations.WriteReportsItsFirstFailingCheck := by
  intro s off n v
  refine ⟨fun h => ?_, fun h h1 h4 => ?_, fun h h' h4 => ?_, ?_, ?_, fun hb h hform => ?_⟩
  · exact hostWrite_of_formError v s (accessForm_unmapped n h)
  · exact hostWrite_of_formError v s (accessForm_width (by omega) h4 fun _ => h1)
  · exact hostWrite_of_formError v s (accessForm_width h' h4 fun hlt => by omega)
  · rintro h rfl h4
    exact hostWrite_of_formError v s (accessForm_misaligned h h4)
  · rintro h h' rfl h4
    exact hostWrite_readOnly h h' h4
  · exact hostWrite_busy v ((accessForm_ok_iff off n).mpr ⟨by omega, by omega⟩) hb h

/-! ## BUF -/

/-- Settles O37: a permitted write of BUF is a write of its storage. -/
theorem bufWritesStoreTheirBytes : Obligations.BufWritesStoreTheirBytes := by
  refine fun s off v hb h => ⟨⟨_, hostWrite_byte v hb h, fun a => ?_⟩, fun h4 => ⟨_, hostWrite_word v hb h h4, fun a => ?_⟩⟩
  · rw [Memory.read_write, byteOf_zero]
  · rw [Memory.read_writeWord, byteOf_eq_setWidth]

/-- Settles O38: a word read says the same as its four byte reads, and both writes are known byte by byte. -/
theorem mixedWidthAccessesAgree : Obligations.MixedWidthAccessesAgree := by
  refine ⟨fun s k j hb hk hj => ?_, fun s k y0 y1 y2 y3 hb hk => ?_, fun s off v hb h => ?_, fun s off v h h' => ?_⟩
  · have hstart : 4 * k < 0x40 := by omega
    have halign : 4 * k % 4 = 0 := by omega
    refine ⟨fun w hw => hostRead_byte_of_word hb hstart halign hj hw, fun v => ?_, fun w v hw => ?_⟩
    · have hback := hostRead_word_writeWord v hb hstart halign
      exact ⟨_, hostWrite_word v hb hstart halign, hback,
        hostRead_byte_of_word (busy_buf_update hb _) hstart halign hj hback⟩
    · exact ⟨_, hostWrite_byte v hb (by omega), hostRead_word_write v hb hstart halign hw⟩
  · obtain ⟨h0, h1, h2, h3⟩ := (eq_bytesToWordLe_iff _ y0 y1 y2 y3).mp rfl
    rw [hostRead_byte_ok_iff hb (by omega), hostRead_byte_ok_iff hb (by omega), hostRead_byte_ok_iff hb (by omega),
      hostRead_byte_ok_iff hb (by omega), hostRead_word_ok_iff hb (by omega) (by omega), forall_lt_four_iff,
      h0, h1, h2, h3, Nat.add_zero (4 * k)]
  · exact ⟨_, hostWrite_byte v hb h, hostRead_byte_write v hb h,
      fun a ha => hostRead_byte_of_read_eq s (Memory.read_write_other _ _ ha)⟩
  · have hform := accessForm_width (n := 1) h' (by decide) (fun hlt => by omega)
    exact ⟨hostRead_of_formError s hform, hostWrite_of_formError v s hform⟩

/-! ## Reads -/

/-- Settles O44: the host's own record is no register, and a read depends on the registers alone. -/
theorem readsHaveNoSideEffect : Obligations.ReadsHaveNoSideEffect := by
  refine ⟨fun off n name s t h => ?_, fun name s t h => ?_⟩
  · obtain ⟨_, _, _, v, hop, hv, rfl⟩ | ⟨_, _, _, hop, -⟩ | ⟨hop, -⟩ | ⟨hop, -⟩ | ⟨hop, -⟩ | ⟨_, _, hop, -⟩ :=
      hostOp_cases h <;> cases hop
    exact ⟨v, hv, rfl, (hostRead_of_sameRegisters (sameRegisters_recordRead ..) off n).trans hv⟩
  · obtain ⟨_, _, _, _, hop, -⟩ | ⟨_, _, _, hop, -⟩ | ⟨hop, -⟩ | ⟨hop, -⟩ | ⟨hop, -⟩ | ⟨_, v, hop, hv, rfl⟩ :=
      hostOp_cases h <;> cases hop
    have hsame := (sameRegisters_recordRead ['t', '0'] 4 v s).trans (sameRegisters_bindJoined name _)
    exact ⟨v, _, hv, rfl, (hostRead_of_sameRegisters hsame 0x70 4).trans hv⟩

/-! ## Several engines -/

/-- Settles O47: a step of one engine is a change at its own index of the list. -/
theorem instancesShareNothing : Obligations.InstancesShareNothing := by
  refine ⟨fun k sys sys' h => ?_, fun k sys => ?_, fun k sys s hk => ?_, fun j k sys h => stepInstanceState_comm sys h⟩
  · obtain ⟨s, t, hk, hs, rfl⟩ := stepInstance_cases h
    refine ⟨stepInstanceState_length k sys, fun j hj => stepInstanceState_other sys hj, s, t, hk, hs, ?_⟩
    rw [stepInstanceState_same, hk]
    simp [stepState, hs, recordOutcome]
  · exact ⟨stepInstanceState_length k sys, stepInstanceState_same k sys, fun j hj => stepInstanceState_other sys hj⟩
  · exact ⟨fun t hs => stepInstance_next hk hs, fun f hs => stepInstance_fault hk hs⟩

end Sys2Proof.Machine
end

section
/-!
SUPPORT. The decoder on the number a word is (30_encoding.md R80 to R83): which word each command has, the words no command
has, the list of the legal words, and the masks of R82.
-/
namespace Sys2Proof.Machine

/-! ## Decoding by numbers -/

/-- The decoder's tests on the number a word is: OP, RSV0, TAILLEN and RSV1 by division and remainder (R81, R83). -/
theorem decode_eq_of_toNat (w : Word) :
    decode w =
      if w.toNat / 2 ^ 4 % 16 ≠ 0 ∨ w.toNat / 2 ^ 14 ≠ 0 then .error .reservedField
      else if w.toNat % 16 = 0 ∧ w.toNat / 2 ^ 8 % 64 = 0 then .ok .nop
      else if w.toNat % 16 = 1 ∧ w.toNat / 2 ^ 8 % 64 = 0 then .ok .init
      else if w.toNat % 16 = 2 ∧ w.toNat / 2 ^ 8 % 64 = 0 then .ok .compress
      else if w.toNat % 16 = 3 then .ok (.finalize (w.toNat / 2 ^ 8 % 64))
      else if w.toNat % 16 < 3 then .error .unexpectedTailLen
      else .error .reservedOpcode := by
  simp only [decode, ne_eq, rsv0Field_eq_zero_iff, rsv1Field_eq_zero_iff, opField_eq_iff, tailLenField_eq_zero_iff,
    tailLenField_toNat, opField_lt_three_iff, BitVec.toNat_ofNat, Nat.reducePow, Nat.reduceMod]

/-- NOP comes of one branch of the decoder, whose tests together say that the word is 0; so for each command below. -/
theorem decode_eq_nop_iff (w : Word) : decode w = .ok .nop ↔ w.toNat = 0 := by
  rw [decode_eq_of_toNat]
  split_ifs <;> simp <;> omega

theorem decode_eq_init_iff (w : Word) : decode w = .ok .init ↔ w.toNat = 1 := by
  rw [decode_eq_of_toNat]
  split_ifs <;> simp <;> omega

theorem decode_eq_compress_iff (w : Word) : decode w = .ok .compress ↔ w.toNat = 2 := by
  rw [decode_eq_of_toNat]
  split_ifs <;> simp <;> omega

theorem decode_eq_finalize_iff (w : Word) (n : Nat) : decode w = .ok (.finalize n) ↔ n ≤ 63 ∧ w.toNat = n * 256 + 3 := by
  rw [decode_eq_of_toNat]
  split_ifs <;> simp <;> omega

theorem encode_finalize_toNat {n : Nat} (h : n ≤ 63) : (encode (.finalize n)).toNat = n * 256 + 3 := cmdWord_toNat n h 0x3#4

/-- The decoder gives exactly the commands that have an encoding, each from exactly its own word. -/
theorem decode_ok_iff (w : Word) (i : Instr) : decode w = .ok i ↔ i.WellFormed ∧ encode i = w := by
  rw [← BitVec.toNat_inj, eq_comm (a := (encode i).toNat)]
  cases i with
  | nop => exact (decode_eq_nop_iff w).trans (true_and _).to_iff.symm
  | init => exact (decode_eq_init_iff w).trans (true_and _).to_iff.symm
  | compress => exact (decode_eq_compress_iff w).trans (true_and _).to_iff.symm
  | finalize n =>
    rw [decode_eq_finalize_iff]
    exact and_congr_right fun h => by rw [encode_finalize_toNat h]

theorem decode_encode {i : Instr} (h : i.WellFormed) : decode (encode i) = .ok i := (decode_ok_iff _ i).mpr ⟨h, rfl⟩

/-! ## Illegal words -/

/-- The fields of a legal word (R83): reserved fields 0, OP one of the four, and TAILLEN 0 where OP is not FINALIZE's. -/
abbrev LegalFields (w : Word) : Prop :=
  w.toNat / 2 ^ 4 % 16 = 0 ∧ w.toNat / 2 ^ 14 = 0 ∧ w.toNat % 16 ≤ 3 ∧ (w.toNat % 16 < 3 → w.toNat / 2 ^ 8 % 64 = 0)

theorem legalFields_of_decode_ok {w : Word} {i : Instr} (h : decode w = .ok i) : LegalFields w := by
  cases i with
  | nop => rw [decode_eq_nop_iff] at h; omega
  | init => rw [decode_eq_init_iff] at h; omega
  | compress => rw [decode_eq_compress_iff] at h; omega
  | finalize n => rw [decode_eq_finalize_iff] at h; omega

theorem exists_decode_error {w : Word} (h : ¬ LegalFields w) : ∃ why, decode w = .error why := by
  cases hd : decode w with
  | error why => exact ⟨why, rfl⟩
  | ok i => exact absurd (legalFields_of_decode_ok hd) h

/-! ## The legal words, listed -/

/-- Every command that has an encoding: NOP, INIT, COMPRESS, and FINALIZE with each TAILLEN. -/
def encodableInstrs : List Instr := .nop :: .init :: .compress :: (List.range 64).map .finalize

theorem mem_encodableInstrs_iff (i : Instr) : i ∈ encodableInstrs ↔ i.WellFormed := by
  cases i with
  | nop => simp [encodableInstrs]
  | init => simp [encodableInstrs]
  | compress => simp [encodableInstrs]
  | finalize n => simp [encodableInstrs]; omega

theorem nodup_encodableInstrs : encodableInstrs.Nodup := by
  have hfinalize : ((List.range 64).map Instr.finalize).Nodup := List.nodup_range.map fun m n h => by simpa using h
  simp [encodableInstrs, hfinalize]

theorem mem_map_encode_iff (w : Word) : w ∈ encodableInstrs.map encode ↔ ∃ i, decode w = .ok i := by
  simp only [List.mem_map, mem_encodableInstrs_iff, decode_ok_iff]

theorem nodup_map_encode : (encodableInstrs.map encode).Nodup := by
  refine nodup_encodableInstrs.map_on fun i hi j hj h => ?_
  have hdecode := congrArg decode h
  rw [decode_encode ((mem_encodableInstrs_iff i).mp hi), decode_encode ((mem_encodableInstrs_iff j).mp hj)] at hdecode
  simpa using hdecode

/-! ## Masks (R82) -/

/-- NOP, INIT and COMPRESS have the mask of all ones. -/
theorem and_fullMask (w : Word) : w &&& 0xFFFFFFFF#32 = w := BitVec.and_allOnes

/-- FINALIZE's mask keeps OP and the reserved fields, and clears TAILLEN alone. -/
theorem opField_and_finalizeMask (w : Word) : opField (w &&& 0xFFFFC0FF#32) = opField w := by
  rw [opField, BitVec.extractLsb'_and]
  exact BitVec.and_allOnes

theorem rsv0Field_and_finalizeMask (w : Word) : rsv0Field (w &&& 0xFFFFC0FF#32) = rsv0Field w := by
  rw [rsv0Field, BitVec.extractLsb'_and]
  exact BitVec.and_allOnes

theorem rsv1Field_and_finalizeMask (w : Word) : rsv1Field (w &&& 0xFFFFC0FF#32) = rsv1Field w := by
  rw [rsv1Field, BitVec.extractLsb'_and]
  exact BitVec.and_allOnes

theorem decode_of_finalizeMatch {w : Word} (h : w &&& 0xFFFFC0FF#32 = 0x00000003#32) :
    decode w = .ok (.finalize (tailLenField w).toNat) := by
  have hop : opField w = 0x3#4 := (opField_and_finalizeMask w).symm.trans (congrArg opField h)
  have hrsv0 : rsv0Field w = 0 := (rsv0Field_and_finalizeMask w).symm.trans (congrArg rsv0Field h)
  have hrsv1 : rsv1Field w = 0 := (rsv1Field_and_finalizeMask w).symm.trans (congrArg rsv1Field h)
  simp [decode, hop, hrsv0, hrsv1]

end Sys2Proof.Machine
end

section
/-!
SUPPORT. The text of a command word (R89): the tokens of a mnemonic and its operand, the value of printed digits, and the
lines the printed texts assemble to.
-/
namespace Sys2Proof.Machine

/-! ## Tokens -/

/-- A character of a word is no separator: the lexer adds it to the word it is reading. -/
theorem lexLine_wordChar {c : Char} (h : isWordChar c = true) (acc rest : List Char) :
    lexLine (.code acc) (c :: rest) = lexLine (.code (c :: acc)) rest := by
  rw [lexLine, if_pos h]
  all_goals
    intros
    subst_vars
    revert h
    decide

theorem lexLine_word {cs : List Char} (h : cs.all isWordChar = true) (acc rest : List Char) :
    lexLine (.code acc) (cs ++ rest) = lexLine (.code (cs.reverse ++ acc)) rest := by
  induction cs generalizing acc with
  | nil => rfl
  | cons c cs ih =>
    obtain ⟨hc, hcs⟩ : isWordChar c = true ∧ cs.all isWordChar = true := by simpa using h
    rw [List.cons_append, lexLine_wordChar hc, ih hcs]
    simp

theorem flushWord_reverse {cs : List Char} (h : cs ≠ []) (rest : List Token) :
    flushWord cs.reverse rest = .word cs :: rest := by simp [flushWord, h]

/-- A mnemonic, a blank and one operand are two tokens. -/
theorem lexLine_mnemonic_operand {m t : List Char} (hm : m.all isWordChar = true)
    (ht : t.all isWordChar = true) (hm' : m ≠ []) (ht' : t ≠ []) :
    lexLine (.code []) (m ++ ' ' :: t) = some [.word m, .word t] := by
  have hoperand : lexLine (.code []) t = some [.word t] := by
    have hword := lexLine_word ht [] []
    rw [List.append_nil, List.append_nil] at hword
    rw [hword, lexLine, flushWord_reverse ht']
  rw [lexLine_word hm, List.append_nil, lexLine, hoperand, Option.map_some, flushWord_reverse hm']

/-! ## Digits -/

theorem isWordChar_digitChar : ∀ d, d < 16 → isWordChar (digitChar d) = true := by decide

theorem digitValue_digitChar : ∀ d, d < 16 → digitValue (digitChar d) = some d := by decide

theorem digitChar_eq_natDigitChar : ∀ d, d < 16 → digitChar d = Nat.digitChar d := by decide

theorem decimalDigits_wordChars {n : Nat} (h : n < 100) : (decimalDigits n).all isWordChar = true := by
  unfold decimalDigits
  split
  · simp [isWordChar_digitChar n (by omega)]
  · simp [isWordChar_digitChar (n / 10) (by omega), isWordChar_digitChar (n % 10) (by omega)]

theorem decimalDigits_ne_nil (n : Nat) : decimalDigits n ≠ [] := by
  unfold decimalDigits
  split <;> simp

theorem numberValue_decimalDigits : ∀ n, n < 64 → numberValue (decimalDigits n) = some n := by decide

theorem decimalDigits_eq_toDigits : ∀ n, n < 64 → decimalDigits n = Nat.toDigits 10 n := by decide

@[simp] theorem hexDigits_length (k n : Nat) : (hexDigits k n).length = k := by
  induction k generalizing n with
  | zero => rfl
  | succ k ih => simp [hexDigits, ih]

theorem hexDigits_wordChars (k n : Nat) : (hexDigits k n).all isWordChar = true := by
  induction k generalizing n with
  | zero => rfl
  | succ k ih => simp [hexDigits, ih, isWordChar_digitChar _ (Nat.mod_lt n (by decide : 16 > 0))]

/-- Digit `j` from the left of `k` hexadecimal digits. -/
theorem hexDigits_getElem? (k n j : Nat) (h : j < k) :
    (hexDigits k n)[j]? = some (digitChar (n / 16 ^ (k - 1 - j) % 16)) := by
  induction k generalizing n with
  | zero => omega
  | succ k ih =>
    rw [hexDigits]
    by_cases hj : j < k
    · rw [List.getElem?_append_left (by simpa using hj), ih _ hj, Nat.div_div_eq_div_mul, ← Nat.pow_succ',
        show (k - 1 - j).succ = k + 1 - 1 - j by omega]
    · obtain rfl : j = k := by omega
      simp

theorem digitsValue_append (base acc : Nat) (t u : List Char) :
    digitsValue base acc (t ++ u) = (digitsValue base acc t).bind fun v => digitsValue base v u := by
  induction t generalizing acc with
  | nil => rfl
  | cons c t ih =>
    simp only [List.cons_append, digitsValue]
    split
    · split
      · exact ih _
      · rfl
    · rfl

theorem digitsValue_digitChar {d : Nat} (h : d < 16) (acc : Nat) :
    digitsValue 16 acc [digitChar d] = some (16 * acc + d) := by
  simp [digitsValue, digitValue_digitChar d h, h]

theorem digitsValue_hexDigits (k n : Nat) (h : n < 16 ^ k) : digitsValue 16 0 (hexDigits k n) = some n := by
  induction k generalizing n with
  | zero =>
    obtain rfl : n = 0 := by simpa using h
    rfl
  | succ k ih =>
    have hhigh : n / 16 < 16 ^ k := Nat.div_lt_of_lt_mul (by rwa [← Nat.pow_succ'])
    rw [hexDigits, digitsValue_append, ih _ hhigh, Option.bind_some, digitsValue_digitChar (Nat.mod_lt _ (by decide)),
      Nat.div_add_mod]

theorem numberValue_hex {t : List Char} (h : t ≠ []) : numberValue ('0' :: 'x' :: t) = digitsValue 16 0 t := by
  simp [numberValue, h]

/-! ## Lines -/

theorem parseLine_finalize (ts : List Token) : parseLine "finalize".toList ts = parseNumber ts .finalize := rfl

theorem parseLine_cmd (ts : List Token) : parseLine "cmd".toList ts = parseNumber ts .cmd := rfl

theorem assembleLine_of_tokens {text m : List Char} {ts : List Token} {l : AsmLine}
    (hlex : lexLine (.code []) text = some (.word m :: ts)) (hparse : parseLine m ts = some l)
    (hcheck : checkLine l = .ok l) : assembleLine text = .ok (expandLine l) := by
  simp [assembleLine, hlex, hparse, hcheck]

theorem assembleLine_finalize {n : Nat} (h : n ≤ 63) :
    assembleLine ("finalize ".toList ++ decimalDigits n) = .ok [cmdWrite (encode (.finalize n))] := by
  have htext : "finalize ".toList ++ decimalDigits n = "finalize".toList ++ ' ' :: decimalDigits n := rfl
  have hlex := lexLine_mnemonic_operand (m := "finalize".toList) (by decide) (decimalDigits_wordChars (n := n) (by omega))
    (by decide) (decimalDigits_ne_nil n)
  have hparse : parseLine "finalize".toList [.word (decimalDigits n)] = some (.finalize n) := by
    rw [parseLine_finalize, parseNumber, numberValue_decimalDigits n (by omega), Option.map_some]
  rw [htext, assembleLine_of_tokens hlex hparse (if_pos h)]
  rfl

theorem assembleLine_cmd_hex (w : Word) :
    assembleLine ("cmd 0x".toList ++ hexDigits 8 w.toNat) = .ok [.write 0x58 4 w.toNat] := by
  have htext : "cmd 0x".toList ++ hexDigits 8 w.toNat = "cmd".toList ++ ' ' :: '0' :: 'x' :: hexDigits 8 w.toNat := rfl
  have hdigits : hexDigits 8 w.toNat ≠ [] := List.ne_nil_of_length_pos (by simp)
  have hlex := lexLine_mnemonic_operand (m := "cmd".toList) (t := '0' :: 'x' :: hexDigits 8 w.toNat) (by decide)
    (hexDigits_wordChars 8 _) (by decide) (by simp)
  have hparse : parseLine "cmd".toList [.word ('0' :: 'x' :: hexDigits 8 w.toNat)] = some (.cmd w.toNat) := by
    rw [parseLine_cmd, parseNumber, numberValue_hex hdigits, digitsValue_hexDigits 8 _ w.isLt, Option.map_some]
  rw [htext, assembleLine_of_tokens hlex hparse (if_pos w.isLt)]
  rfl

theorem assembleLine_nop : assembleLine "nop".toList = .ok [cmdWrite (encode .nop)] := rfl

theorem assembleLine_init : assembleLine "init".toList = .ok [cmdWrite (encode .init)] := rfl

theorem assembleLine_compress : assembleLine "compress".toList = .ok [cmdWrite (encode .compress)] := rfl

/-! ## Disassembly -/

/-- The printed text of a command (R89). -/
def instrText (i : Instr) : List Char :=
  match i with
  | .nop => "nop".toList
  | .init => "init".toList
  | .compress => "compress".toList
  | .finalize n => "finalize ".toList ++ decimalDigits n

theorem disassembleText_of_ok {w : Word} {i : Instr} (h : decode w = .ok i) : disassembleText w = instrText i := by
  rw [disassembleText, h]
  cases i <;> rfl

theorem disassembleText_of_error {w : Word} {why : IllegalWord} (h : decode w = .error why) :
    disassembleText w = "cmd 0x".toList ++ hexDigits 8 w.toNat := by simp [disassembleText, h]

theorem assembleLine_instrText {i : Instr} (h : i.WellFormed) :
    assembleLine (instrText i) = .ok [cmdWrite (encode i)] := by
  cases i with
  | nop => exact assembleLine_nop
  | init => exact assembleLine_init
  | compress => exact assembleLine_compress
  | finalize n => exact assembleLine_finalize h

theorem assembleLine_disassembleText (w : Word) : assembleLine (disassembleText w) = .ok [.write 0x58 4 w.toNat] := by
  cases hd : decode w with
  | error why => rw [disassembleText_of_error hd, assembleLine_cmd_hex]
  | ok i =>
    obtain ⟨hwf, rfl⟩ := (decode_ok_iff w i).mp hd
    rw [disassembleText_of_ok hd]
    exact assembleLine_instrText hwf

end Sys2Proof.Machine
end

section
/-!
SUPPORT. The pseudo-instructions of R88: how `ldbuf` expands and what its operations store, the numbers the other expansions
write, and the value `getdout` binds.
-/
namespace Sys2Proof.Machine

/-! ## The expansion of `ldbuf` (R88) -/

theorem expandLdbuf_word {p : Nat} (h : p % 4 = 0) (b0 b1 b2 b3 : Byte) (rest : List Byte) :
    expandLdbuf p (b0 :: b1 :: b2 :: b3 :: rest) =
      wordWrite p (bytesToWordLe b0 b1 b2 b3).toNat :: expandLdbuf (p + 4) rest := by
  rw [expandLdbuf, if_pos h]

theorem expandLdbuf_byte {p : Nat} {b : Byte} {rest : List Byte} (h : p % 4 ≠ 0 ∨ (b :: rest).length < 4) :
    expandLdbuf p (b :: rest) = .write p 1 b.toNat :: expandLdbuf (p + 1) rest := by
  match rest with
  | [] | [_] | [_, _] => rfl
  | b1 :: b2 :: b3 :: rest =>
    have hp : p % 4 ≠ 0 := h.resolve_right (by simp)
    rw [expandLdbuf, if_neg hp]

/-! ## The bytes of BUF after `ldbuf` -/

/-- Storage with bytes written one after the other from an offset up. -/
def Memory.writeRun (m : Memory) (p : Nat) (bytes : List Byte) : Memory :=
  match bytes with
  | [] => m
  | b :: rest => (m.write p b).writeRun (p + 1) rest

theorem Memory.read_writeRun (m : Memory) (p : Nat) (bytes : List Byte) (a : Nat) :
    (m.writeRun p bytes).read a =
      if p ≤ a then (if a < p + bytes.length then bytes[a - p]? else m.read a) else m.read a := by
  induction bytes generalizing m p with
  | nil =>
    simp [Memory.writeRun]
    omega
  | cons b rest ih =>
    rw [Memory.writeRun, ih, Memory.read_write, List.length_cons]
    obtain hlt | rfl | hgt := Nat.lt_trichotomy a p
    · rw [if_neg (by omega), if_neg (by omega), if_neg (by omega)]
    · simp
    · rw [show a - p = a - (p + 1) + 1 by omega, List.getElem?_cons_succ,
        show p + 1 + rest.length = p + (rest.length + 1) by omega]
      simp [show p + 1 ≤ a by omega, show p ≤ a by omega, show a ≠ p by omega]

/-- A word write of four bytes is the four byte writes. -/
theorem Memory.writeWord_bytesToWordLe (m : Memory) (p : Nat) (b0 b1 b2 b3 : Byte) :
    m.writeWord p (bytesToWordLe b0 b1 b2 b3) = m.writeRun p [b0, b1, b2, b3] := by
  obtain ⟨h0, h1, h2, h3⟩ := (eq_bytesToWordLe_iff _ b0 b1 b2 b3).mp rfl
  simp only [Memory.writeWord, wordToBytesLe, h0, h1, h2, h3, Memory.writeRun]

theorem Memory.writeRun_append (m : Memory) (p : Nat) (bytes more : List Byte) :
    m.writeRun p (bytes ++ more) = (m.writeRun p bytes).writeRun (p + bytes.length) more := by
  induction bytes generalizing m p with
  | nil => rfl
  | cons b rest ih =>
    rw [List.cons_append, Memory.writeRun, ih, Memory.writeRun, List.length_cons, Nat.add_assoc, Nat.add_comm 1]

/-! ## The host operations of `ldbuf` -/

theorem hostOp_wordWrite_bytes {p : Nat} {s : State} (b0 b1 b2 b3 : Byte) (hb : s.busy = false) (h : p < 0x40)
    (h4 : p % 4 = 0) :
    hostOp (wordWrite p (bytesToWordLe b0 b1 b2 b3).toNat) s =
      .next { s with buf := s.buf.writeRun p [b0, b1, b2, b3] } := by
  have hfits : ¬ 2 ^ (8 * 4) ≤ (bytesToWordLe b0 b1 b2 b3).toNat := Nat.not_le.mpr (BitVec.isLt _)
  rw [wordWrite, hostOp, hostOpWrite, if_neg hfits, BitVec.ofNat_toNat, BitVec.setWidth_eq, hostWrite_word _ hb h h4,
    Memory.writeWord_bytesToWordLe]

theorem hostOp_byteWrite {p : Nat} {s : State} (b : Byte) (hb : s.busy = false) (h : p < 0x40) :
    hostOp (.write p 1 b.toNat) s = .next { s with buf := s.buf.writeRun p [b] } := by
  have hfits : ¬ 2 ^ (8 * 1) ≤ b.toNat := Nat.not_le.mpr b.isLt
  have hbyte : byteOf (BitVec.ofNat 32 b.toNat) 0 = b := by simp [byteOf_zero]
  rw [hostOp, hostOpWrite, if_neg hfits, hostWrite_byte _ hb h, hbyte]
  rfl

/-- Host operations that, run on an engine that is not busy, write these bytes from `p` up and nothing else; each of them
uses up one of the host steps before the engine's (log entry 2). -/
def LoadsBytes (ops : List HostOp) (p : Nat) (bytes : List Byte) : Prop :=
  ∀ (s : State) (rest : List HostOp), s.fault = none → s.busy = false → s.program = ops ++ rest →
    Reaches s { s with buf := s.buf.writeRun p bytes, program := rest, delay := s.delay - ops.length }

theorem LoadsBytes.nil (p : Nat) : LoadsBytes [] p [] := by
  intro s rest hf hb hp
  obtain rfl : s.program = rest := hp
  exact Reaches.refl s

theorem LoadsBytes.cons {op : HostOp} {ops : List HostOp} {p : Nat} {now later : List Byte}
    (hop : ∀ s : State, s.busy = false → hostOp op s = .next { s with buf := s.buf.writeRun p now })
    (hops : LoadsBytes ops (p + now.length) later) : LoadsBytes (op :: ops) p (now ++ later) := by
  intro s rest hf hb hp
  refine Reaches.host hf hb hp (hop _ hb) ?_
  have htail := hops { s with buf := s.buf.writeRun p now, program := ops ++ rest, delay := s.delay - 1 } rest hf hb rfl
  rwa [← Memory.writeRun_append, Nat.sub_sub, Nat.add_comm 1] at htail

theorem loadsBytes_expandLdbuf (p : Nat) (bytes : List Byte) (h : p + bytes.length ≤ 64) :
    LoadsBytes (expandLdbuf p bytes) p bytes := by
  induction p, bytes using expandLdbuf.induct with
  | case1 p => exact LoadsBytes.nil p
  | case2 p b0 b1 b2 b3 more h4 ih =>
    rw [List.length_cons, List.length_cons, List.length_cons, List.length_cons] at h
    rw [expandLdbuf_word h4]
    exact LoadsBytes.cons (fun s hb => hostOp_wordWrite_bytes b0 b1 b2 b3 hb (by omega) h4) (ih (by omega))
  | case3 p b0 b1 b2 b3 more h4 ih =>
    rw [List.length_cons] at h
    rw [expandLdbuf_byte (.inl h4)]
    exact LoadsBytes.cons (fun s hb => hostOp_byteWrite b0 hb (by omega)) (ih (by omega))
  | case4 p b more hshort ih =>
    rw [List.length_cons] at h
    rw [expandLdbuf]
    · exact LoadsBytes.cons (fun s hb => hostOp_byteWrite b hb (by omega)) (ih (by omega))
    · exact hshort

/-! ## The other pseudo-instructions (R88) -/

theorem encode_finalize_toNat_or {n : Nat} (h : n ≤ 63) : (encode (.finalize n)).toNat = 0x00000003 ||| n <<< 8 := by
  rw [encode_finalize_toNat h, Nat.or_comm, ← Nat.shiftLeft_add_eq_or_of_lt (by decide), Nat.shiftLeft_eq]

theorem lowWord_ofNat_toNat (v : Nat) : (lowWord (BitVec.ofNat 64 v)).toNat = v % 2 ^ 32 := by
  simp [lowWord, BitVec.extractLsb'_toNat]

theorem highWord_ofNat_toNat {v : Nat} (h : v < 2 ^ 64) : (highWord (BitVec.ofNat 64 v)).toNat = v / 2 ^ 32 := by
  simp [highWord, BitVec.extractLsb'_toNat, Nat.shiftRight_eq_div_pow]
  omega

theorem lookupRead_append_same (reads : List Reading) (name : HostName) (n : Nat) (v : Word) :
    lookupRead name (reads ++ [⟨name, n, v⟩]) = some v := by simp [lookupRead]

theorem lookupRead_append_other {r : Reading} {name : HostName} (reads : List Reading) (h : r.name ≠ name) :
    lookupRead name (reads ++ [r]) = lookupRead name reads := by simp [lookupRead, h]

theorem joinedRead_of_lookups {reads : List Reading} {v3 v2 v1 : Word} (v0 : Word)
    (h3 : lookupRead ['t', '3'] reads = some v3) (h2 : lookupRead ['t', '2'] reads = some v2)
    (h1 : lookupRead ['t', '1'] reads = some v1) :
    joinedRead (reads ++ [⟨['t', '0'], 4, v0⟩]) = some (v3 ++ v2 ++ v1 ++ v0) := by
  have hother : ∀ name, ['t', '0'] ≠ name →
      lookupRead name (reads ++ [⟨['t', '0'], 4, v0⟩]) = lookupRead name reads := fun _ h => lookupRead_append_other reads h
  rw [joinedRead, hother _ (by decide), hother _ (by decide), hother _ (by decide), lookupRead_append_same, h3, h2, h1]

theorem hostOp_getdoutEnd {name : HostName} {s : State} {v3 v2 v1 v0 : Word}
    (h3 : lookupRead ['t', '3'] s.reads = some v3) (h2 : lookupRead ['t', '2'] s.reads = some v2)
    (h1 : lookupRead ['t', '1'] s.reads = some v1) (h0 : hostRead 0x70 4 s = .ok v0) :
    hostOp (.getdoutEnd name) s = .next
      { s with
        reads := s.reads ++ [⟨['t', '0'], 4, v0⟩], joined := s.joined ++ [⟨name, v3 ++ v2 ++ v1 ++ v0⟩] } := by
  rw [hostOp, hostOpGetdoutEnd, show WordReg.dout0.offset = 0x70 from rfl, h0]
  simp only [bindJoined, recordRead, joinedRead_of_lookups v0 h3 h2 h1, Option.toList_some, List.map_cons, List.map_nil]

end Sys2Proof.Machine
end

section
/-!
PROOF. The statements of 30_encoding.md: the decoder (O3, O1, O2, O4), the printed text (O5) and the pseudo-instructions (O6,
O51).
-/
namespace Sys2Proof.Machine

/-! ## Decoding -/

/-- Settles O3, command by command on the number its word is. -/
theorem decodeIsTheInverseOfEncode : Obligations.DecodeIsTheInverseOfEncode := decode_ok_iff

/-- Settles O1: the legal words are those of the encodable commands, which `encode` keeps apart. -/
theorem decodeRuleOnAllWords : Obligations.DecodeRuleOnAllWords := by
  refine ⟨fun w => ⟨fun h => ?_, fun hrsv0 hrsv1 => ⟨fun ht hop => ?_, fun ht hop => ?_, fun ht hop => ?_,
    fun hop => ?_, fun ht hop => ?_, fun hop => ?_⟩⟩, encodableInstrs.map encode, ?_, nodup_map_encode, mem_map_encode_iff⟩
  · exact exists_decode_error (by omega)
  · exact (decode_eq_nop_iff w).mpr (by omega)
  · exact (decode_eq_init_iff w).mpr (by omega)
  · exact (decode_eq_compress_iff w).mpr (by omega)
  · exact (decode_eq_finalize_iff w _).mpr (by omega)
  · exact exists_decode_error (by omega)
  · exact exists_decode_error (by omega)
  · simp [encodableInstrs]

/-- Settles O2: the masks of NOP, INIT and COMPRESS keep the whole word, FINALIZE's all fields but TAILLEN. -/
theorem matchAndMaskSelectTheMnemonic : Obligations.MatchAndMaskSelectTheMnemonic := by
  intro w
  rw [and_fullMask, ← BitVec.toNat_inj, ← BitVec.toNat_inj, ← BitVec.toNat_inj]
  refine ⟨decode_eq_nop_iff w, decode_eq_init_iff w, decode_eq_compress_iff w, ⟨?_, fun h => ?_⟩, fun hop => ?_⟩
  · rintro ⟨n, hn⟩
    obtain ⟨-, rfl⟩ := (decode_ok_iff w _).mp hn
    exact Laws.OpcodeMap.finalize n
  · exact ⟨_, decode_of_finalizeMatch h⟩
  · exact exists_decode_error (by omega)

/-- Settles O4, by evaluating the decoder on each of the ten words. -/
theorem decodesTheWordsOfTheTable : Obligations.DecodesTheWordsOfTheTable := by
  unfold Obligations.DecodesTheWordsOfTheTable
  decide

/-! ## Text -/

/-- Settles O5: every printed text is one of a mnemonic and at most one number, and the number's digits read back. -/
theorem disassemblyAssemblesBack : Obligations.DisassemblyAssemblesBack := by
  refine fun w => ⟨disassembleText_of_ok, disassembleText_of_ok, disassembleText_of_ok, fun n hd => ?_, fun why hd => ?_,
    assembleLine_disassembleText w⟩
  · have hn : n ≤ 63 := ((decode_eq_finalize_iff w n).mp hd).1
    rw [disassembleText_of_ok hd, ← decimalDigits_eq_toDigits n (by omega)]
    rfl
  · refine ⟨hexDigits 8 w.toNat, disassembleText_of_error hd, hexDigits_length 8 _, fun k hk => ?_⟩
    rw [hexDigits_getElem? 8 _ k hk, digitChar_eq_natDigitChar _ (Nat.mod_lt _ (by decide))]

/-! ## Pseudo-instructions -/

/-- Settles O6, row by row of R88's table. -/
theorem pseudoInstructionsExpandAsTabled : Obligations.PseudoInstructionsExpandAsTabled := by
  refine ⟨rfl, rfl, rfl, fun n hn => ?_, fun v => rfl, fun v hv => ?_, fun p => rfl,
    fun p b0 b1 b2 b3 rest hp => expandLdbuf_word hp b0 b1 b2 b3 rest, fun p b rest h => expandLdbuf_byte h,
    fun a b c d => rfl, fun name => rfl, fun name => rfl,
    fun name s v3 v2 v1 v0 h3 h2 h1 h0 => hostOp_getdoutEnd h3 h2 h1 h0, rfl,
    fun s => ⟨statusWord s, hostRead_status s, fun h => ?_, fun h => ?_⟩⟩
  · rw [expandLine, cmdWrite, encode_finalize_toNat_or hn]
    rfl
  · rw [expandLine, expandSetlen, lowWord_ofNat_toNat, highWord_ofNat_toNat hv]
    rfl
  · exact hostOpWait_busy ((statusBusyBit_statusWord s).symm.trans h)
  · exact hostOpWait_ready ((statusBusyBit_statusWord s).symm.trans h)

/-- Settles O51: each operation of the expansion writes its bytes and leaves the rest to the others. -/
theorem ldbufStoresItsBytes : Obligations.LdbufStoresItsBytes := fun bytes p s rest hfit hf hb hp =>
  ⟨s.buf.writeRun p bytes, loadsBytes_expandLdbuf p bytes hfit s rest hf hb hp, s.buf.read_writeRun p bytes⟩

end Sys2Proof.Machine
end

section
/-!
PROOF. The round trips of the codec and the canonical digest bytes (40_codec.md R104, R106).
-/
namespace Sys2Proof.Machine

/-! ## The bytes of a 64-bit length -/

theorem byteOf_lowWord (l : Len64) {k : Nat} (hk : k < 4) : byteOf (lowWord l) k = l.extractLsb' (8 * k) 8 := by
  apply BitVec.eq_of_getLsbD_eq
  intro i hi
  simp [byteOf, lowWord, show 8 * k + i < 32 by omega]

theorem byteOf_highWord (l : Len64) {k : Nat} (hk : k < 4) : byteOf (highWord l) k = l.extractLsb' (32 + 8 * k) 8 := by
  apply BitVec.eq_of_getLsbD_eq
  intro i hi
  simp [byteOf, highWord, show 8 * k + i < 32 by omega, Nat.add_assoc]

/-- Settles O7: a word is the four bytes put together exactly where they are its bytes, and the bytes of a length are those
of its low word, then those of its high word. -/
theorem codecLaws : Obligations.CodecLaws := by
  refine ⟨fun v => ?_, fun y0 y1 y2 y3 => ?_, fun l => ⟨_, _, _, _, _, _, _, _, rfl, ?_, ?_⟩⟩
  · exact ((eq_bytesToWordLe_iff v _ _ _ _).mpr ⟨rfl, rfl, rfl, rfl⟩).symm
  · obtain ⟨h0, h1, h2, h3⟩ := (eq_bytesToWordLe_iff _ y0 y1 y2 y3).mp rfl
    rw [wordToBytesLe, h0, h1, h2, h3]
  · rw [setWidth_eq_lowWord, eq_comm, eq_bytesToWordLe_iff]
    refine ⟨?_, ?_, ?_, ?_⟩ <;> exact byteOf_lowWord l (by decide)
  · rw [setWidth_eq_lowWord, lowWord_shiftRight, eq_comm, eq_bytesToWordLe_iff]
    refine ⟨?_, ?_, ?_, ?_⟩ <;> exact byteOf_highWord l (by decide)

/-! ## The bytes of a formatted digest -/

/-- Byte-swapping puts a word's bytes together in the opposite order (R103). -/
theorem bswap32_eq_bytesToWordLe (v : Word) :
    bswap32 v = bytesToWordLe (byteOf v 3) (byteOf v 2) (byteOf v 1) (byteOf v 0) := by
  apply BitVec.eq_of_getLsbD_eq
  intro i hi
  have happend : (bswap32 v).getLsbD i = (byteOf v 0 ++ byteOf v 1 ++ byteOf v 2 ++ byteOf v 3).getLsbD i := rfl
  rw [happend, bytesToWordLe_getLsbD _ _ _ _ _ hi]
  simp only [BitVec.getLsbD_append, Nat.sub_sub]
  simp only [show i - 8 < 8 ↔ i < 16 by omega, show i - (8 + 8) < 8 ↔ i < 24 by omega, Nat.reduceAdd]

/-- The bytes of a byte-swapped word, most significant first, are the word's own, least significant first. -/
theorem wordByteList_eq_byteOf_bswap32 (v : Word) :
    wordByteList v =
      [byteOf (bswap32 v) 3, byteOf (bswap32 v) 2, byteOf (bswap32 v) 1, byteOf (bswap32 v) 0] := by
  obtain ⟨h0, h1, h2, h3⟩ := (eq_bytesToWordLe_iff _ _ _ _ _).mp (bswap32_eq_bytesToWordLe v)
  rw [h0, h1, h2, h3]
  rfl

/-- A byte of a DOUT view is a byte of the formatted digest. -/
theorem byteOf_doutView (w : Quad Word) (k : Nat) {j : Nat} (hj : j < 4) :
    byteOf (doutView k w) j = (formatDigest w >>> (8 * (4 * k + j))).setWidth 8 := by
  apply BitVec.eq_of_getLsbD_eq
  intro i hi
  rw [byteOf_getLsbD _ _ _ hi, doutView, BitVec.getLsbD_extractLsb']
  simp [hi, show 8 * j + i < 32 by omega, show 32 * k + (8 * j + i) = 8 * (4 * k + j) + i by omega]

/-- A word shown byte-swapped in DOUTk stands, byte by byte, in the formatted digest from byte 4k + 3 down to byte 4k. -/
theorem wordByteList_of_doutView {w : Quad Word} {v : Word} {k : Nat} (h : doutView k w = bswap32 v) :
    wordByteList v = (List.range 4).map fun t => (formatDigest w >>> (8 * (4 * k + (3 - t)))).setWidth 8 := by
  rw [wordByteList_eq_byteOf_bswap32, ← h, byteOf_doutView w k (by decide), byteOf_doutView w k (by decide),
    byteOf_doutView w k (by decide), byteOf_doutView w k (by decide)]
  rfl

/-- Settles O8: a, b, c, d are shown byte-swapped in DOUT3, DOUT2, DOUT1, DOUT0. -/
theorem digestBytesAreTheFormattedValueBigEndian : Obligations.DigestBytesAreTheFormattedValueBigEndian := by
  intro w
  obtain ⟨ha, hb, hc, hd⟩ := doutView_words w
  rw [digestBytes, wordByteList_of_doutView ha, wordByteList_of_doutView hb, wordByteList_of_doutView hc,
    wordByteList_of_doutView hd]
  rfl

end Sys2Proof.Machine
end

section
/-!
PROOF. The padded buffer: its zero bytes, its length, its layout (41_preprocessor.md R121 to R123).
-/
namespace Sys2Proof.Machine

/-! ## The number of zero bytes -/

/-- Two fillings of the last block differ by a multiple of 64, and both are below 64. -/
theorem zeroCount_unique {len z : Nat} (hz : z ≤ 63) (hmod : (len + 1 + z) % 64 = 56) : z = zeroCount len := by
  obtain ⟨hle, hspec⟩ := zeroCount_spec len
  omega

theorem zeroCount_of_residue_le {len : Nat} (h : len % 64 ≤ 55) : zeroCount len = 55 - len % 64 :=
  (zeroCount_unique (by omega) (by omega)).symm

theorem zeroCount_of_le_residue {len : Nat} (h : 56 ≤ len % 64) : zeroCount len = 119 - len % 64 :=
  (zeroCount_unique (by omega) (by omega)).symm

/-- The terminator is always there: n is at least 1, and the zero bytes are the rest of it. -/
theorem padCount_eq (len : Nat) : padCount len = (zeroCount len : Int) + 1 := by
  have hpos : 1 ≤ padCount len := by
    unfold padCount
    dsimp only
    split <;> omega
  rw [zeroCount]
  omega

/-! ## The length of a padded buffer -/

theorem preprocess_length_of_residue (tail : List Byte) (bitLen : Len64) :
    (preprocess tail bitLen).length =
      if tail.length % 64 ≤ 55 then tail.length - tail.length % 64 + 64 else tail.length - tail.length % 64 + 128 := by
  rw [preprocess_length_eq]
  split
  · next h => rw [zeroCount_of_residue_le h]; omega
  · next h => rw [zeroCount_of_le_residue (by omega)]; omega

/-- Settles O11: the padding adds at least 9 bytes and at most 72, so no multiple of 64 lies between. -/
theorem paddedLengthIsTheSmallestMultiple : Obligations.PaddedLengthIsTheSmallestMultiple := by
  intro tail bitLen
  have hmod := preprocess_length_mod tail bitLen
  have hlen := preprocess_length_eq tail bitLen
  obtain ⟨hz, -⟩ := zeroCount_spec tail.length
  refine ⟨Nat.dvd_of_mod_eq_zero hmod, ?_, fun m hm hge => ?_, fun h => ?_, fun h h' => ?_⟩ <;> omega

/-- Settles O10: the count is the one that fills the last block, so its table is read off the equation. -/
theorem zeroByteCountByResidue : Obligations.ZeroByteCountByResidue := by
  intro len
  obtain ⟨hle, hmod⟩ := zeroCount_spec len
  refine ⟨hle, hmod, fun z => zeroCount_unique, padCount_eq len, zeroCount_of_residue_le, zeroCount_of_le_residue, ?_⟩
  rintro tail bitLen rfl
  exact preprocess_length_of_residue tail bitLen

/-! ## The layout of a padded buffer -/

/-- A byte of a length, by its place in the length (R102). -/
theorem lengthToBytesLe_getElem? (l : Len64) {k : Nat} (hk : k < 8) :
    (lengthToBytesLe l)[k]? = some ((l >>> (8 * k)).setWidth 8) := by
  unfold lengthToBytesLe
  interval_cases k <;> rfl

/-- Past the tail stand the terminator, the zero bytes and the length. -/
theorem preprocess_getElem?_add (tail : List Byte) (bitLen : Len64) (j : Nat) :
    (preprocess tail bitLen)[tail.length + j]? =
      (0x80#8 :: (List.replicate (zeroCount tail.length) 0x00#8 ++ lengthToBytesLe bitLen))[j]? := by
  simp [preprocess, List.getElem?_append_right]

/-- Settles O9, part by part. -/
theorem paddedBufferLayout : Obligations.PaddedBufferLayout := by
  intro tail bitLen
  refine ⟨fun j hj => ?_, ?_, fun j hlt hle => ?_, fun k hk => ?_, ?_⟩
  · rw [preprocess, List.append_assoc, List.append_assoc, List.getElem?_append_left hj]
  · exact preprocess_getElem?_add tail bitLen 0
  · obtain ⟨i, rfl⟩ := Nat.exists_eq_add_of_lt hlt
    rw [Nat.add_assoc, preprocess_getElem?_add, List.getElem?_cons_succ, List.getElem?_append_left (by simp; omega),
      List.getElem?_replicate_of_lt (by omega)]
  · have hplace : tail.length + zeroCount tail.length + 1 + k = tail.length + (zeroCount tail.length + k + 1) := by omega
    rw [hplace, preprocess_getElem?_add, List.getElem?_cons_succ, List.getElem?_append_right (by simp)]
    simp [lengthToBytesLe_getElem? bitLen hk]
  · rw [preprocess_length_eq]
    omega

end Sys2Proof.Machine
end

section
/-!
PROOF. The compression core from the inside out: the tables and the rotation (42_compression.md R141, R142), the round
functions (R143 to R146, R152), the message index (R147), one block (R148 to R150), a buffer of blocks (R140, R151).
-/
namespace Sys2Proof.Machine

/-! ## The tables and the rotation -/

/-- The rotation written with two shifts is the rotation, for the amounts of R10. -/
theorem rotl_eq_rotateLeft (x : Word) {k : Nat} (hk : k ≤ 31) : rotl x k = x.rotateLeft k := by
  rw [rotl, BitVec.rotateLeft_def, Nat.mod_eq_of_lt (by omega)]

/-- "`rotl` never rotates by 0 or by 32 or more" (R142). -/
theorem rotAmount_bounds : ∀ i : Fin 64, 4 ≤ rotAmount i ∧ rotAmount i ≤ 23 := by decide

/-- Settles O54: the tables are evaluated, the rotation is a lemma for every word. -/
theorem constantTablesAndRotation : Obligations.ConstantTablesAndRotation :=
  ⟨by decide, by decide, fun x _ hk => rotl_eq_rotateLeft x hk⟩

/-! ## The round functions -/

theorem fsel_eq_getD (i : Fin 64) (b c d : Word) :
    fsel i b c d = [roundF b c d, roundG b c d, roundH b c d, roundI b c d].getD (i.val / 16) 0 := by
  unfold fsel
  split_ifs with h1 h2 h3
  · rw [show i.val / 16 = 0 by omega]; rfl
  · rw [show i.val / 16 = 1 by omega]; rfl
  · rw [show i.val / 16 = 2 by omega]; rfl
  · rw [show i.val / 16 = 3 by omega]; rfl

theorem roundF_getLsbD (b c d : Word) {k : Nat} (hk : k < 32) :
    (roundF b c d).getLsbD k = if b.getLsbD k then c.getLsbD k else d.getLsbD k := by
  simp only [roundF, BitVec.getLsbD_or, BitVec.getLsbD_and, BitVec.getLsbD_not, hk]
  cases b.getLsbD k <;> simp

/-- G is F with d as the selector (R144). -/
theorem roundG_getLsbD (b c d : Word) {k : Nat} (hk : k < 32) :
    (roundG b c d).getLsbD k = if d.getLsbD k then b.getLsbD k else c.getLsbD k := roundF_getLsbD d b c hk

theorem roundH_getLsbD (b c d : Word) (k : Nat) :
    (roundH b c d).getLsbD k = (b.getLsbD k ^^ c.getLsbD k ^^ d.getLsbD k) := by
  simp [roundH]

theorem roundI_getLsbD (b c d : Word) {k : Nat} (hk : k < 32) :
    (roundI b c d).getLsbD k = (c.getLsbD k ^^ (b.getLsbD k || !d.getLsbD k)) := by
  simp [roundI, hk]

/-- Settles O12: the selection by the round of the step, and each function on one bit. -/
theorem roundFunctionsBitByBit : Obligations.RoundFunctionsBitByBit :=
  ⟨fsel_eq_getD, fun b c d k hk => ⟨roundF_getLsbD b c d hk, roundG_getLsbD b c d hk, roundH_getLsbD b c d k,
    roundI_getLsbD b c d hk⟩⟩

/-! ## The message index -/

/-- Step `q` of round `r`. -/
def stepOfRound (r : Fin 4) (q : Fin 16) : Fin 64 := ⟨16 * r.val + q.val, by omega⟩

theorem exists_stepOfRound {r : Fin 4} {i : Fin 64} (h : i.val / 16 = r.val) : ∃ q, i = stepOfRound r q :=
  ⟨⟨i.val % 16, by omega⟩, Fin.ext (by simp only [stepOfRound]; omega)⟩

/-- Within a round no message word is used twice, hence each is used: g is a permutation of 0..15 there. -/
theorem msgIndex_stepOfRound_bijective (r : Fin 4) : Function.Bijective fun q => msgIndex (stepOfRound r q) := by
  have hinj : ∀ (r : Fin 4) (q q' : Fin 16), msgIndex (stepOfRound r q) = msgIndex (stepOfRound r q') → q = q' := by
    decide
  exact Finite.injective_iff_bijective.mp (hinj r)

/-- Settles O13: the listed values are evaluated, and g permutes 0..15 in each round. -/
theorem messageIndexPermutesEachRound : Obligations.MessageIndexPermutesEachRound := by
  refine ⟨by decide, fun r k => ?_⟩
  obtain ⟨q, hq, hunique⟩ := (msgIndex_stepOfRound_bijective r).existsUnique k
  refine ⟨stepOfRound r q, ⟨by simp only [stepOfRound]; omega, hq⟩, fun j hj hjk => ?_⟩
  obtain ⟨q', rfl⟩ := exists_stepOfRound hj
  rw [hunique q' hjk]

/-! ## One step and one block -/

/-- Settles O14: the step is evaluated on the spec's numbers. -/
theorem stepWorkedExamples : Obligations.StepWorkedExamples := by
  refine ⟨?_, ?_, ?_, ?_, ?_, ?_⟩ <;> decide

/-- A step with the rotation of R10 as the rotation it names. -/
theorem roundStep_eq_rotateLeft (i : Fin 64) (w : Quad Word) (m : Fin 16 → Word) :
    roundStep i w m = ⟨w.d, w.b + (stepSum i w m).rotateLeft (rotAmount i), w.b, w.c⟩ := by
  have hle : rotAmount i ≤ 31 := (rotAmount_bounds i).2.trans (by decide)
  rw [roundStep, rotl_eq_rotateLeft _ hle]

theorem byteOf_toNat (v : Word) (k : Nat) : (byteOf v k).toNat = v.toNat / 2 ^ (8 * k) % 2 ^ 8 := by
  simp [byteOf, BitVec.extractLsb'_toNat, Nat.shiftRight_eq_div_pow]

/-- The word of four bytes as a number: it is the one below 2^32 with those bytes. -/
theorem bytesToWordLe_toNat (y0 y1 y2 y3 : Byte) :
    (bytesToWordLe y0 y1 y2 y3).toNat =
      y0.toNat + 2 ^ 8 * y1.toNat + 2 ^ 16 * y2.toNat + 2 ^ 24 * y3.toNat := by
  obtain ⟨h0, h1, h2, h3⟩ := (eq_bytesToWordLe_iff _ y0 y1 y2 y3).mp rfl
  generalize bytesToWordLe y0 y1 y2 y3 = w at *
  have hw := w.isLt
  rw [← h0, ← h1, ← h2, ← h3]
  simp only [byteOf_toNat]
  omega

/-- The working registers after the first `n` steps of a block (R149). -/
def afterSteps (w : Quad Word) (m : Fin 16 → Word) (n : Nat) : Quad Word :=
  ((List.finRange 64).take n).foldl (fun v i => roundStep i v m) w

theorem afterSteps_zero (w : Quad Word) (m : Fin 16 → Word) : afterSteps w m 0 = w := rfl

theorem afterSteps_succ (w : Quad Word) (m : Fin 16 → Word) (i : Fin 64) :
    afterSteps w m (i.val + 1) = roundStep i (afterSteps w m i.val) m := by
  have htake : (List.finRange 64).take (i.val + 1) = (List.finRange 64).take i.val ++ [i] := by
    rw [List.take_add_one, List.getElem?_eq_getElem (by simp), List.getElem_finRange]
    rfl
  rw [afterSteps, htake, List.foldl_append]
  rfl

theorem afterSteps_all (w : Quad Word) (m : Fin 16 → Word) : afterSteps w m 64 = roundSteps w m := by
  rw [afterSteps, List.take_of_length_le (by simp), roundSteps]

/-- Settles O55: the words are those the block is parsed into, the registers those after each step. -/
theorem blockRunsSixtyFourSteps : Obligations.BlockRunsSixtyFourSteps := by
  intro acc blk
  refine ⟨msgWord blk, afterSteps acc (msgWord blk), fun k => bytesToWordLe_toNat _ _ _ _, afterSteps_zero _ _,
    fun i => ?_, ?_⟩
  · rw [afterSteps_succ, roundStep_eq_rotateLeft, stepSum]
  · rw [afterSteps_all, block, addWords]

/-! ## A buffer of blocks -/

theorem compress_of_length_mod {bytes : List Byte} (h : bytes.length % 64 ≠ 0) (acc : Quad Word) :
    compress bytes acc = .error .blockLengthViolation := if_pos h

theorem compress_of_length {bytes : List Byte} {n : Nat} (h : bytes.length = 64 * n) (acc : Quad Word) :
    compress bytes acc = compressBlocks n bytes acc := by
  rw [compress, if_neg (by omega), show bytes.length / 64 = n by omega]

/-- The loop over the blocks of `x ++ y` is the loop over the blocks of `x`, then that over the blocks of `y`. -/
theorem compressBlocks_append {n : Nat} {x : List Byte} (hx : x.length = 64 * n) (k : Nat) (y : List Byte)
    {acc w : Quad Word} (hw : compressBlocks n x acc = .ok w) : compressBlocks (n + k) (x ++ y) acc = compressBlocks k y w := by
  induction n generalizing x acc with
  | zero =>
    obtain rfl : x = [] := List.eq_nil_of_length_eq_zero hx
    obtain rfl : acc = w := Except.ok.inj hw
    rw [Nat.zero_add, List.nil_append]
  | succ n ih =>
    obtain ⟨blk, hblk⟩ := blockOfList?_isSome (x.take 64) (by rw [List.length_take]; omega)
    rw [compressBlocks, hblk] at hw
    rw [Nat.add_right_comm, compressBlocks, List.take_append_of_le_length (by omega), hblk,
      List.drop_append_of_le_length (by omega)]
    exact ih (by rw [List.length_drop]; omega) hw

/-- "Accumulator values carry forward across blocks" (R140). -/
theorem compress_append {x y : List Byte} (hx : x.length % 64 = 0) (hy : y.length % 64 = 0) {acc w : Quad Word}
    (hw : compress x acc = .ok w) : compress (x ++ y) acc = compress y w := by
  obtain ⟨n, hn⟩ := Nat.dvd_of_mod_eq_zero hx
  obtain ⟨k, hk⟩ := Nat.dvd_of_mod_eq_zero hy
  rw [compress_of_length hn] at hw
  rw [compress_of_length (n := n + k) (by rw [List.length_append]; omega), compress_of_length hk]
  exact compressBlocks_append hn k y hw

/-- Settles O16: `compress` answers on both buffers, and the accumulator carries forward from the first to the second. -/
theorem compressOfAConcatenation : Obligations.CompressOfAConcatenation := by
  intro x y acc hx hy
  obtain ⟨w, hw⟩ := compress_ok x acc hx
  obtain ⟨v, hv⟩ := compress_ok y w hy
  exact ⟨w, v, hw, hv, (compress_append hx hy hw).trans hv⟩

/-- The only fault a command ends in is a byte it reads that is unwritten. -/
theorem exec_fault {i : Instr} {s : State} {k : Fault} (h : exec i s = .fault k) : k = .unwrittenRead := by
  cases i with
  | nop => rw [exec_nop] at h; cases h
  | init => rw [exec_init] at h; cases h
  | compress =>
    change execCompress s = .fault k at h
    cases hop : blockOperand s with
    | none => rw [execCompress_of_unwritten hop] at h; cases h; rfl
    | some blk => rw [execCompress_of_block hop] at h; cases h
  | finalize n =>
    change execFinalize n s = .fault k at h
    by_cases hn : 63 < n
    · rw [execFinalize, if_pos hn] at h; cases h
    · cases hop : tailOperand n s with
      | none => rw [execFinalize_of_unwritten (by omega) hop] at h; cases h; rfl
      | some tail =>
        obtain ⟨w, -, hnext⟩ := execFinalize_of_tail (by omega) hop
        rw [hnext] at h; cases h

/-- Settles O15: a command's only fault is UnwrittenRead, and one block followed by others is a concatenation. -/
theorem compressRunsBlocksInOrder : Obligations.CompressRunsBlocksInOrder :=
  ⟨fun _ _ h => (nomatch exec_fault h), fun _ acc h => compress_of_length_mod h acc, fun _ => rfl,
    fun acc blk _ hrest => compress_append (by simp) hrest (compress_block acc blk)⟩

end Sys2Proof.Machine
end

section
/-!
SUPPORT. What a command of the table can leave, said once over all of them (43_commands.md R178); that one FINALIZE leaves
another's operands alone (R177); the word of FINALIZE as R82 writes it; and a command word placed in CMDLATCH.
-/
namespace Sys2Proof.Machine

/-! ## What a command writes -/

/-- What a command can leave: one case for each row of the table. -/
theorem exec_cases {i : Instr} {s t : State} (h : exec i s = .next t) :
    (i = .nop ∧ t = complete s) ∨
    (i = .init ∧ t = complete { s with acc := iv }) ∨
    (i = .compress ∧ ∃ blk, t = complete { s with acc := block s.acc blk }) ∨
    (∃ n w, i = .finalize n ∧ t = complete (recordDigest w s)) := by
  cases i with
  | nop => exact .inl ⟨rfl, by simpa [exec_nop] using h.symm⟩
  | init => exact .inr (.inl ⟨rfl, by simpa [exec_init] using h.symm⟩)
  | compress =>
    obtain ⟨blk, -, ht⟩ := execCompress_cases h
    exact .inr (.inr (.inl ⟨rfl, blk, ht⟩))
  | finalize n =>
    obtain ⟨-, _, w, -, -, ht⟩ := execFinalize_cases h
    exact .inr (.inr (.inr ⟨n, w, rfl, ht⟩))

/-- The frame of all commands: beside BUSY a command writes at most ACC, and that by INIT and COMPRESS alone, and DIGEST with
DV, and those by FINALIZE alone. -/
theorem exec_frame {i : Instr} {s t : State} (h : exec i s = .next t) :
    ∃ acc digest dv, t = { s with acc := acc, digest := digest, dv := dv, busy := false } ∧
      (i ≠ .init → i ≠ .compress → acc = s.acc) ∧ ((∀ n, i ≠ .finalize n) → digest = s.digest ∧ dv = s.dv) := by
  obtain ⟨-, rfl⟩ | ⟨rfl, rfl⟩ | ⟨rfl, blk, rfl⟩ | ⟨n, w, rfl, rfl⟩ := exec_cases h
  · exact ⟨s.acc, s.digest, s.dv, rfl, fun _ _ => rfl, fun _ => ⟨rfl, rfl⟩⟩
  · exact ⟨iv, s.digest, s.dv, rfl, fun hne => absurd rfl hne, fun _ => ⟨rfl, rfl⟩⟩
  · exact ⟨block s.acc blk, s.digest, s.dv, rfl, fun _ hne => absurd rfl hne, fun _ => ⟨rfl, rfl⟩⟩
  · exact ⟨s.acc, ⟨some w.a, some w.b, some w.c, some w.d⟩, true, rfl, fun _ _ => rfl, fun hne => absurd rfl (hne n)⟩

/-! ## FINALIZE after FINALIZE -/

/-- FINALIZE reads BUF, BITLEN and ACC, which no FINALIZE writes, and replaces all that one writes. -/
theorem execFinalize_of_finalized (n : Nat) (w : Quad Word) (s : State) :
    execFinalize n (complete (recordDigest w s)) = execFinalize n s := by
  by_cases hn : 63 < n
  · rw [execFinalize, execFinalize, if_pos hn, if_pos hn]
  have htail : tailOperand n (complete (recordDigest w s)) = tailOperand n s := by
    rw [tailOperand, tailOperand, complete_buf, recordDigest_buf]
  cases hop : tailOperand n s with
  | none => rw [execFinalize_of_unwritten (by omega) hop, execFinalize_of_unwritten (by omega) (htail.trans hop)]
  | some tail =>
    obtain ⟨v, hv, hnext⟩ := execFinalize_of_tail (by omega) hop
    obtain ⟨v', hv', hnext'⟩ := execFinalize_of_tail (by omega) (htail.trans hop)
    rw [complete_bitLen, recordDigest_bitLen, complete_acc, recordDigest_acc, hv] at hv'
    obtain rfl : v = v' := Except.ok.inj hv'
    rw [hnext, hnext']
    rfl

/-! ## Command words -/

/-- FINALIZE's word, `0x00000003 | (n << 8)` (R82). -/
theorem encode_finalize_eq_or {n : Nat} (h : n ≤ 63) :
    encode (.finalize n) = 0x00000003#32 ||| (BitVec.ofNat 32 n <<< 8) := by
  have hshift : n <<< 8 < 2 ^ 32 := by rw [Nat.shiftLeft_eq]; omega
  apply BitVec.eq_of_toNat_eq
  rw [encode_finalize_toNat_or h, BitVec.toNat_or, BitVec.toNat_shiftLeft, BitVec.toNat_ofNat, BitVec.toNat_ofNat,
    Nat.mod_eq_of_lt (by omega : n < 2 ^ 32), Nat.mod_eq_of_lt hshift]

theorem decode_of_decodeTableWord {nbits w : Nat} {i : Instr} (h : decodeTableWord nbits w = some i) :
    decode (BitVec.ofNat 32 (w % 2 ^ nbits)) = .ok i := by
  rw [decodeTableWord] at h
  cases hd : decode (BitVec.ofNat 32 (w % 2 ^ nbits)) with
  | error why => rw [hd] at h; cases h
  | ok j => rw [hd] at h; cases h; rfl

@[simp] theorem withFetchWord_cmdLatch (s : State) (nbits w : Nat) :
    (s.withFetchWord nbits w).cmdLatch = BitVec.ofNat 32 (w % 2 ^ nbits) := (rfl)

@[simp] theorem withFetchWord_fault (s : State) (nbits w : Nat) : (s.withFetchWord nbits w).fault = none := (rfl)

/-- After a word is placed, the engine's turn is next (log entry 7). -/
theorem nextTurn_withFetchWord (s : State) (nbits w : Nat) : nextTurn (s.withFetchWord nbits w) = .engine :=
  (nextTurn_engine_iff _).mpr ⟨rfl, .inl rfl⟩

/-- The step of a legal word is the meaning of its command, wherever the engine's turn is next. -/
theorem step_legal {s : State} {i : Instr} (hf : s.fault = none) (ht : nextTurn s = .engine)
    (hd : decode s.cmdLatch = .ok i) : step s = exec i s := (step_engine hf ht).trans (engineStep_legal hd)

end Sys2Proof.Machine
end

section
/-!
PROOF. The statements of 43_commands.md: the commands (O17 to O20), what they leave unchanged (O22), FINALIZE again (O23), an
Illegal word (O21), the dispatch (O24) and the issue (O36).
-/
namespace Sys2Proof.Machine

/-! ## The commands -/

/-- Settles O17: completion is all NOP does. -/
theorem nopOnlyCompletes : Obligations.NopOnlyCompletes := ⟨(decode_eq_nop_iff _).mpr rfl, exec_nop⟩

/-- Settles O18: the four words are IV. -/
theorem initLoadsTheInitialAccumulator : Obligations.InitLoadsTheInitialAccumulator :=
  ⟨(decode_eq_init_iff _).mpr rfl, exec_init⟩

/-- Settles O19: COMPRESS has its block exactly where all 64 bytes are written. -/
theorem compressFoldsTheBuffer : Obligations.CompressFoldsTheBuffer := by
  refine ⟨(decode_eq_compress_iff _).mpr rfl, fun s blk hbytes => ?_, fun s j hj hnone => ?_⟩
  · exact execCompress_of_block ((blockOperand_eq_some_iff s blk).mpr hbytes)
  · exact execCompress_of_unwritten ((blockOperand_eq_none_iff s).mpr ⟨j, hj, hnone⟩)

/-- Settles O20: FINALIZE has its tail exactly where the bytes before `n` are written, and the core takes every padded
buffer. -/
theorem finalizeDigestsTheTail : Obligations.FinalizeDigestsTheTail := by
  refine ⟨fun n hn => ?_, fun s tail hlen hbytes => ?_, fun s n j hn hj hnone => ?_⟩
  · rw [← encode_finalize_eq_or hn]
    exact decode_encode hn
  · exact execFinalize_of_tail hlen ((tailOperand_eq_some_iff _ s tail).mpr ⟨rfl, hbytes⟩)
  · exact execFinalize_of_unwritten hn ((tailOperand_eq_none_iff n s).mpr ⟨j, hj, hnone⟩)

/-- Settles O22, by the frame of the commands. -/
theorem commandsLeaveTheRestUnchanged : Obligations.CommandsLeaveTheRestUnchanged := by
  intro i s t h
  obtain ⟨acc, digest, dv, rfl, hacc, hdigest⟩ := exec_frame h
  exact ⟨rfl, fun _ => rfl, rfl, rfl, rfl, rfl, rfl, rfl, rfl, rfl, rfl, rfl, rfl, hacc, hdigest⟩

/-- Settles O23: a FINALIZE does the same after another FINALIZE as without it. -/
theorem finalizeTwiceGivesTheSameDigest : Obligations.FinalizeTwiceGivesTheSameDigest := by
  intro n m s t h
  obtain ⟨-, _, w, -, -, rfl⟩ := execFinalize_cases h
  exact ⟨(execFinalize_of_finalized n w s).trans h, fun u hu => (execFinalize_of_finalized m w s).symm.trans hu⟩

/-! ## The engine's step and the issue -/

/-- Settles O21: each of the listed fields is one no legal word has. -/
theorem illegalWordReportsTheError : Obligations.IllegalWordReportsTheError := by
  intro s hfields
  obtain ⟨why, hwhy⟩ := exists_decode_error (w := s.cmdLatch) (by omega)
  exact engineStep_illegal hwhy

/-- Settles O24: the engine's turn is next by hypothesis, and by construction where a word has been placed. -/
theorem stepRunsTheLatchedCommand : Obligations.StepRunsTheLatchedCommand := by
  refine ⟨fun s hf hb hnext => ?_, fun s i hf hb hnext hd => ?_, fun s w i hw => ?_⟩
  · exact step_engine hf ((nextTurn_engine_iff s).mpr ⟨hb, hnext⟩)
  · exact step_legal hf ((nextTurn_engine_iff s).mpr ⟨hb, hnext⟩) hd
  · have hd : decode (s.withFetchWord 32 w).cmdLatch = .ok i := by
      rw [withFetchWord_cmdLatch]
      exact decode_of_decodeTableWord hw
    exact step_legal (withFetchWord_fault s 32 w) (nextTurn_withFetchWord s 32 w) hd

/-- Settles O36: CMD is written like any word register, and what it writes is the issue. -/
theorem cmdWriteIssuesTheCommand : Obligations.CmdWriteIssuesTheCommand := by
  refine fun s v => ⟨fun hb => ?_, fun hb => ?_⟩
  · exact ⟨nextLatency s, s.latencies.tail, s.issued + 1, hostWrite_reg (r := .cmd) hb (by decide)⟩
  · exact hostWrite_busy v (WordReg.accessForm_offset .cmd) hb (by decide)

end Sys2Proof.Machine
end

section
/-!
PROOF. The Digest State by itself: what the drain leaves, the digests of chunked messages (O48, O49), and the digests the source
gives (O56; 44_host_streaming.md R200 to R204, R210).
-/
namespace Sys2Proof.Machine

/-! ## The drain (R202) -/

theorem drain_of_block {buf : List Byte} {blk : Block} (h : blockOfList? (buf.take 64) = some blk) (n : Nat)
    (acc : Quad Word) : drain (n + 1) acc buf = drain n (block acc blk) (buf.drop 64) := by rw [drain, h]

theorem exists_firstBlock {n : Nat} {buf : List Byte} (h : 64 * (n + 1) ≤ buf.length) :
    ∃ blk, blockOfList? (buf.take 64) = some blk := blockOfList?_isSome _ (by rw [List.length_take]; omega)

theorem le_length_drop_block {n : Nat} {buf : List Byte} (h : 64 * (n + 1) ≤ buf.length) :
    64 * n ≤ (buf.drop 64).length := by
  rw [List.length_drop]
  omega

/-- Blocks drained from the front are drained alike whatever follows them. -/
theorem drain_append {n : Nat} {x : List Byte} (hx : 64 * n ≤ x.length) (k : Nat) (acc : Quad Word) (y : List Byte) :
    drain (n + k) acc (x ++ y) = drain k (drain n acc x).1 ((drain n acc x).2 ++ y) := by
  induction n generalizing acc x with
  | zero => rw [Nat.zero_add, drain]
  | succ n ih =>
    obtain ⟨blk, hblk⟩ := exists_firstBlock hx
    have hfront : blockOfList? ((x ++ y).take 64) = some blk := by rwa [List.take_append_of_le_length (by omega)]
    rw [Nat.add_right_comm, drain_of_block hfront, drain_of_block hblk, List.drop_append_of_le_length (by omega)]
    exact ih (le_length_drop_block hx) _

theorem drain_snd {n : Nat} {buf : List Byte} (h : 64 * n ≤ buf.length) (acc : Quad Word) :
    (drain n acc buf).2 = buf.drop (64 * n) := by
  induction n generalizing acc buf with
  | zero => rfl
  | succ n ih =>
    obtain ⟨blk, hblk⟩ := exists_firstBlock h
    rw [drain_of_block hblk, ih (le_length_drop_block h), List.drop_drop, Nat.mul_succ, Nat.add_comm]

theorem remainder_length (buf : List Byte) : (remainder buf).length = buf.length % 64 := by
  rw [remainder, List.length_drop]
  omega

/-! ## `consume` (R202) -/

theorem consume_eq (s : DigestState) (data : List Byte) :
    consume s data =
      ⟨(drain ((s.buffer ++ data).length / 64) s.acc (s.buffer ++ data)).1,
       (drain ((s.buffer ++ data).length / 64) s.acc (s.buffer ++ data)).2,
       s.totalLength + BitVec.ofNat 64 data.length⟩ := rfl

theorem consume_acc (s : DigestState) (data : List Byte) :
    (consume s data).acc = (drain ((s.buffer ++ data).length / 64) s.acc (s.buffer ++ data)).1 := rfl

theorem consume_buffer (s : DigestState) (data : List Byte) :
    (consume s data).buffer = remainder (s.buffer ++ data) := drain_snd (by omega) s.acc

theorem consume_totalLength (s : DigestState) (data : List Byte) :
    (consume s data).totalLength = s.totalLength + BitVec.ofNat 64 data.length := rfl

/-- Step 5 of R207: with the right accumulator the host's new state is the consumed one. -/
theorem consumedState_eq_consume (s : DigestState) (data : List Byte) :
    consumedState s data (consume s data).acc = consume s data := by
  rw [consumedState, ← consume_buffer, ← consume_totalLength]

theorem consume_consume (s : DigestState) (x y : List Byte) : consume (consume s x) y = consume s (x ++ y) := by
  have hcount : (s.buffer ++ (x ++ y)).length / 64 =
      (s.buffer ++ x).length / 64 + ((consume s x).buffer ++ y).length / 64 := by
    simp only [consume_buffer, List.length_append, remainder_length]
    omega
  have hdrain : drain ((s.buffer ++ (x ++ y)).length / 64) s.acc (s.buffer ++ (x ++ y)) =
      drain (((consume s x).buffer ++ y).length / 64) (consume s x).acc ((consume s x).buffer ++ y) := by
    rw [hcount, ← List.append_assoc]
    exact drain_append (by omega) _ _ _
  have htotal : (consume s x).totalLength + BitVec.ofNat 64 y.length =
      s.totalLength + BitVec.ofNat 64 (x ++ y).length := by
    rw [consume_totalLength, List.length_append, BitVec.ofNat_add, BitVec.add_assoc]
  rw [consume_eq (consume s x) y, consume_eq s (x ++ y), hdrain, htotal]

theorem consume_nil {s : DigestState} (h : s.buffer.length ≤ 63) : consume s [] = s := by
  rw [consume_eq, List.append_nil, Nat.div_eq_of_lt (by omega), drain, List.length_nil, BitVec.add_zero]

theorem foldl_consume (chunks : List (List Byte)) (s : DigestState) (x : List Byte) :
    chunks.foldl consume (consume s x) = consume s (x ++ chunks.flatten) := by
  induction chunks generalizing x with
  | nil => simp
  | cons c chunks ih => rw [List.foldl_cons, consume_consume, ih, List.flatten_cons, List.append_assoc]

/-! ## `digest` (R203) and the statements -/

theorem digest_of_compress {d : DigestState} {w : Quad Word}
    (h : compress (preprocess d.buffer (bitLength d)) d.acc = .ok w) : digest d = .ok (formatDigest w) := by
  rw [digest, h]

theorem digest_ok (d : DigestState) : ∃ v, digest d = .ok v := by
  obtain ⟨w, hw⟩ := compress_preprocess_ok d.buffer (bitLength d) d.acc
  exact ⟨_, digest_of_compress hw⟩

/-- Settles O48: consuming chunk after chunk is consuming their concatenation, from the state after an empty consume. -/
theorem chunkingDoesNotChangeTheDigest : Obligations.ChunkingDoesNotChangeTheDigest := by
  refine ⟨consume_consume, fun chunks => ?_⟩
  have hnew : consume digestNew [] = digestNew := consume_nil (by decide)
  have hfold := foldl_consume chunks digestNew []
  rw [hnew, List.nil_append] at hfold
  rw [hfold, calculate]

/-- Settles O49: what the drain leaves is the remainder, and the core takes every padded buffer. -/
theorem consumeKeepsTheBufferShort : Obligations.ConsumeKeepsTheBufferShort := by
  refine ⟨fun s data => ⟨?_, consume_totalLength s data⟩, fun s => consume_nil, digest_ok⟩
  rw [consume_buffer, remainder_length, List.length_append]

/-- Settles O56, by evaluating the three digests. -/
theorem sourceDigests : Obligations.SourceDigests := by
  refine ⟨?_, ?_, ?_⟩ <;> decide +kernel

end Sys2Proof.Machine
end

section
/-!
SUPPORT. Pieces of a host program run from an engine that is not busy, whatever the latencies (30_encoding.md R88,
20_memory.md R61): accesses to word registers, `ldbuf`, and a command with its `wait`.
-/
namespace Sys2Proof.Machine

/-! ## An engine that is not busy -/

/-- The engine is not busy, no fault is recorded, and these host operations are to come. -/
structure Ready (ops : List HostOp) (s : State) : Prop where
  fault   : s.fault = none
  busy    : s.busy = false
  program : s.program = ops

/-- The run reaches a state that is not busy, with `rest` of the host program to come, of which `Q` holds. -/
def RunsTo (s : State) (rest : List HostOp) (Q : State → Prop) : Prop := ∃ t, Reaches s t ∧ Ready rest t ∧ Q t

theorem RunsTo.here {s : State} {rest : List HostOp} {Q : State → Prop} (hs : Ready rest s) (hq : Q s) : RunsTo s rest Q :=
  ⟨s, Reaches.refl s, hs, hq⟩

/-- A run, then a run from the state it reaches. -/
theorem RunsTo.andThen {s : State} {mid rest : List HostOp} {P Q : State → Prop} (h : RunsTo s mid P)
    (hnext : ∀ t, Ready mid t → P t → RunsTo t rest Q) : RunsTo s rest Q := by
  obtain ⟨t, hst, ht, hp⟩ := h
  obtain ⟨u, htu, hu, hq⟩ := hnext t ht hp
  exact ⟨u, hst.trans htu, hu, hq⟩

/-! ## Word registers -/

/-- A write of a word register is `writeReg`; a word always fits its access. -/
theorem hostOp_wordWrite {r : WordReg} {v : Word} {s t : State} (hb : s.busy = false) (hr : r.offset < 0x5C)
    (hw : writeReg r v s = .ok t) : hostOp (wordWrite r.offset v.toNat) s = .next t := by
  have hfits : ¬ 2 ^ (8 * 4) ≤ v.toNat := Nat.not_le.mpr v.isLt
  rw [wordWrite, hostOp, hostOpWrite, if_neg hfits, BitVec.ofNat_toNat, BitVec.setWidth_eq, hostWrite_reg hb hr, hw]

theorem hostOp_wordRead {r : WordReg} {v : Word} {s : State} (name : HostName) (hb : s.busy = false) (hr : r ≠ .cmd)
    (hv : readReg r s = .ok v) : hostOp (wordRead r name) s = .next (recordRead name 4 v s) := by
  rw [wordRead, hostOp, hostOpRead, hostRead_reg hb hr, hv]

theorem runsTo_setacc {acc : Quad Word} {s : State} {rest : List HostOp}
    (hs : Ready (expandLine (setaccLine acc) ++ rest) s) : RunsTo s rest fun t => t.acc = acc := by
  obtain ⟨hf, hb, hp⟩ := hs
  refine ⟨{ s with acc := acc, program := rest, delay := s.delay - 1 - 1 - 1 - 1 }, ?_, ⟨hf, hb, rfl⟩, rfl⟩
  exact Reaches.host hf hb hp (hostOp_wordWrite (r := .accA) hb (by decide) rfl) <|
    Reaches.host hf hb rfl (hostOp_wordWrite (r := .accB) hb (by decide) rfl) <|
    Reaches.host hf hb rfl (hostOp_wordWrite (r := .accC) hb (by decide) rfl) <|
    Reaches.host hf hb rfl (hostOp_wordWrite (r := .accD) hb (by decide) rfl) <| Reaches.refl _

theorem runsTo_setlen {len : Len64} {s : State} {rest : List HostOp} (hs : Ready (expandSetlen len ++ rest) s) :
    RunsTo s rest fun t => t.acc = s.acc ∧ t.buf = s.buf ∧ t.bitLen = len := by
  obtain ⟨hf, hb, hp⟩ := hs
  refine ⟨_, Reaches.host hf hb hp (hostOp_wordWrite (r := .bitLenLo) hb (by decide) rfl) <|
    Reaches.host hf hb rfl (hostOp_wordWrite (r := .bitLenHi) hb (by decide) rfl) <| Reaches.refl _,
    ⟨hf, hb, rfl⟩, rfl, rfl, ?_⟩
  simp

/-- A read of a word register: the name it is kept under, and the value read. -/
structure RegRead where
  reg   : WordReg
  name  : HostName
  value : Word

/-- The host operation of the read. -/
def RegRead.op (r : RegRead) : HostOp := wordRead r.reg r.name

/-- What the host records of the read. -/
def RegRead.reading (r : RegRead) : Reading := ⟨r.name, 4, r.value⟩

/-- The reads leave the registers as they are and stand at the end of the host's record. -/
structure AfterReads (regs : List RegRead) (s t : State) : Prop where
  registers : SameRegisters s t
  joined    : t.joined = s.joined
  reads     : t.reads = s.reads ++ regs.map RegRead.reading

theorem runsTo_regRead {r : RegRead} {s : State} {rest : List HostOp} (hs : Ready (r.op :: rest) s) (hcmd : r.reg ≠ .cmd)
    (hr : readReg r.reg s = .ok r.value) : RunsTo s rest (AfterReads [r] s) := by
  obtain ⟨hf, hb, hp⟩ := hs
  have hread := (readReg_of_sameRegisters (sameRegisters_program_delay s rest (s.delay - 1)) r.reg).trans hr
  exact ⟨_, Reaches.host hf hb hp (hostOp_wordRead r.name hb hcmd hread) (Reaches.refl _), ⟨hf, hb, rfl⟩,
    (sameRegisters_program_delay ..).trans (sameRegisters_recordRead ..), rfl, rfl⟩

/-- Registers read one after the other. -/
theorem runsTo_regReads (regs : List RegRead) {s : State} {rest : List HostOp}
    (hs : Ready (regs.map RegRead.op ++ rest) s)
    (hvalues : ∀ r ∈ regs, r.reg ≠ .cmd ∧ readReg r.reg s = .ok r.value) : RunsTo s rest (AfterReads regs s) := by
  induction regs generalizing s with
  | nil => exact RunsTo.here hs ⟨SameRegisters.refl s, rfl, (List.append_nil _).symm⟩
  | cons r regs ih =>
    obtain ⟨⟨hcmd, hr⟩, hothers⟩ := List.forall_mem_cons.mp hvalues
    refine (runsTo_regRead hs hcmd hr).andThen fun t ht hfirst => ?_
    obtain ⟨u, htu, hu, hlater⟩ := ih ht fun q hq => by
      rw [readReg_of_sameRegisters hfirst.registers]
      exact hothers q hq
    exact ⟨u, htu, hu, hfirst.registers.trans hlater.registers, hlater.joined.trans hfirst.joined,
      by rw [hlater.reads, hfirst.reads, List.append_assoc]; rfl⟩

/-! ## `ldbuf` -/

theorem runsTo_ldbuf {bytes : List Byte} {s : State} {rest : List HostOp} (hfit : bytes.length ≤ 64)
    (hs : Ready (expandLdbuf 0x00 bytes ++ rest) s) :
    RunsTo s rest fun t => t.acc = s.acc ∧ t.reads = s.reads ∧
      ∀ (j : Nat) (h : j < bytes.length), t.buf.read j = some bytes[j] := by
  have hrun := loadsBytes_expandLdbuf 0x00 bytes (by omega) s rest hs.fault hs.busy hs.program
  refine ⟨_, hrun, ⟨hs.fault, hs.busy, rfl⟩, rfl, rfl, fun j h => ?_⟩
  rw [Memory.read_writeRun, if_pos (Nat.zero_le j), if_pos (by omega), Nat.sub_zero, List.getElem?_eq_getElem h]

/-! ## A command and its `wait` -/

/-- The registers a command reads (R81) stay. -/
structure SameOperands (s t : State) : Prop where
  acc    : t.acc = s.acc
  buf    : t.buf = s.buf
  bitLen : t.bitLen = s.bitLen

theorem SameOperands.trans {s t u : State} (h : SameOperands s t) (h' : SameOperands t u) : SameOperands s u :=
  ⟨h'.acc.trans h.acc, h'.buf.trans h.buf, h'.bitLen.trans h.bitLen⟩

/-- A command is in flight, and the host waits for it before the rest of its program. -/
structure Waiting (w : Word) (rest : List HostOp) (s : State) : Prop where
  fault    : s.fault = none
  busy     : s.busy = true
  program  : s.program = .wait :: rest
  cmdLatch : s.cmdLatch = w

/-- The host's rounds of `wait` use up the delay, and then the engine's step is next. -/
theorem Waiting.reaches_engineTurn {w : Word} {rest : List HostOp} {s : State} (h : Waiting w rest s) :
    ∃ t, Reaches s t ∧ Waiting w rest t ∧ nextTurn t = .engine ∧ SameOperands s t := by
  induction hdelay : s.delay generalizing s with
  | zero => exact ⟨s, Reaches.refl s, h, (nextTurn_engine_iff s).mpr ⟨h.busy, .inl hdelay⟩, rfl, rfl, rfl⟩
  | succ k ih =>
    have hturn : nextTurn s = .host := (nextTurn_host_iff s).mpr ⟨by simp [h.program], fun _ => by omega⟩
    obtain ⟨u, hround, hu, hk, hsu⟩ : ∃ u, step s = .next u ∧ Waiting w rest u ∧ u.delay = k ∧ SameOperands s u :=
      ⟨_, (step_host h.fault hturn h.program).trans (hostOpWait_busy h.busy), ⟨h.fault, h.busy, rfl, h.cmdLatch⟩,
        Nat.sub_eq_of_eq_add hdelay, rfl, rfl, rfl⟩
    obtain ⟨t, hut, ht, hnext, hsame⟩ := ih hu hk
    exact ⟨t, Reaches.head hround hut, ht, hnext, hsu.trans hsame⟩

/-- The CMD write puts the command in flight. -/
theorem reaches_waiting {w : Word} {rest : List HostOp} {s : State} (hs : Ready (cmdWrite w :: .wait :: rest) s) :
    ∃ t, Reaches s t ∧ Waiting w rest t ∧ SameOperands s t := by
  obtain ⟨hf, hb, hp⟩ := hs
  exact ⟨_, Reaches.host hf hb hp (hostOp_wordWrite (r := .cmd) hb (by decide) rfl) (Reaches.refl _),
    ⟨hf, issue_busy _ _, rfl, rfl⟩, rfl, rfl, rfl⟩

/-- `wait` on an engine that is not busy is one read of STATUS. -/
theorem runsTo_wait {s : State} {rest : List HostOp} (hs : Ready (.wait :: rest) s) :
    RunsTo s rest (SameRegisters s) := by
  obtain ⟨hf, hb, hp⟩ := hs
  exact ⟨_, Reaches.host hf hb hp (hostOpWait_ready hb) (Reaches.refl _), ⟨hf, hb, rfl⟩,
    (sameRegisters_program_delay ..).trans (sameRegisters_recordRead ..)⟩

/-- A command with its `wait`: where the command completes on the operands the engine holds, the host goes on with the
registers as the command leaves them. -/
theorem runsTo_command {i : Instr} {s : State} {rest : List HostOp} {Q : State → Prop} (hi : i.WellFormed)
    (hs : Ready (cmdWrite (encode i) :: .wait :: rest) s)
    (hexec : ∀ u, SameOperands s u → ∃ t, exec i u = .next t ∧ ∀ v, SameRegisters t v → Q v) : RunsTo s rest Q := by
  obtain ⟨r, hsr, hr, hissued⟩ := reaches_waiting hs
  obtain ⟨u, hru, hu, hturn, hsame⟩ := hr.reaches_engineTurn
  obtain ⟨t, ht, hq⟩ := hexec u (hissued.trans hsame)
  have hstep : step u = .next t := (step_legal hu.fault hturn (hu.cmdLatch ▸ decode_encode hi)).trans ht
  obtain ⟨acc, digest, dv, rfl, -⟩ := exec_frame ht
  obtain ⟨v, htv, hv, hreg⟩ := runsTo_wait (s := { u with acc, digest, dv, busy := false }) ⟨hu.fault, rfl, hu.program⟩
  exact ⟨v, (hsr.trans hru).trans (Reaches.head hstep htv), hv, hq v hreg⟩

end Sys2Proof.Machine
end

section
/-!
PROOF. The engine and the Digest State (44_host_streaming.md R207 to R209): FINALIZE on an engine that holds one (O50), and
the driver's two sequences (O52, O53).
-/
namespace Sys2Proof.Machine

/-! ## FINALIZE and DOUT -/

/-- ACC and BUF hold the Digest State. -/
structure Holds (d : DigestState) (s : State) : Prop where
  acc    : s.acc = d.acc
  buffer : ∀ (j : Nat) (h : j < d.buffer.length), s.buf.read j = some d.buffer[j]

theorem Holds.of_eq {d : DigestState} {s t : State} (h : Holds d s) (hacc : t.acc = s.acc) (hbuf : t.buf = s.buf) :
    Holds d t := ⟨hacc.trans h.acc, hbuf ▸ h.buffer⟩

/-- DV is set and DIGEST holds these words. -/
structure Recorded (w : Quad Word) (s : State) : Prop where
  dv     : s.dv = true
  digest : s.digest = ⟨some w.a, some w.b, some w.c, some w.d⟩

theorem recorded_finalized (w : Quad Word) (s : State) : Recorded w (complete (recordDigest w s)) :=
  ⟨by rw [complete_dv, recordDigest_dv], by rw [complete_digest, recordDigest_digest]⟩

theorem Recorded.of_sameRegisters {w : Quad Word} {s t : State} (h : Recorded w s) (hsame : SameRegisters s t) :
    Recorded w t := ⟨hsame.dv.trans h.dv, hsame.digest.trans h.digest⟩

theorem Recorded.readDout {w : Quad Word} {s : State} (h : Recorded w s) (k : Nat) :
    readDout s k = .ok (doutView k w) := readDout_of_digest k h.dv h.digest

theorem Recorded.hostRead_dout {w : Quad Word} {s : State} (h : Recorded w s) (hb : s.busy = false) {k : Nat} (hk : k < 4) :
    hostRead (0x70 + 4 * k) 4 s = .ok (doutView k w) := (Machine.hostRead_dout hb hk).trans (h.readDout k)

/-- DOUT3 to DOUT0, put together, are the formatted digest (R33, R105). -/
theorem doutViews_append (w : Quad Word) :
    (doutView 3 w ++ doutView 2 w ++ doutView 1 w ++ doutView 0 w : BitVec 128) = formatDigest w := by
  obtain ⟨ha, hb, hc, hd⟩ := doutView_words w
  rw [ha, hb, hc, hd]
  rfl

/-- FINALIZE on an engine that holds a Digest State records the words whose formatted value is its digest. -/
theorem exec_finalize_of_holds {d : DigestState} {s : State} (hlen : d.buffer.length ≤ 63) (hs : Holds d s)
    (hbits : s.bitLen = bitLength d) :
    ∃ w, exec (.finalize d.buffer.length) s = .next (complete (recordDigest w s)) ∧ digest d = .ok (formatDigest w) := by
  obtain ⟨w, hw, hnext⟩ := execFinalize_of_tail hlen ((tailOperand_eq_some_iff _ s d.buffer).mpr ⟨rfl, hs.buffer⟩)
  rw [hs.acc, hbits] at hw
  exact ⟨w, hnext, digest_of_compress hw⟩

/-- Settles O50: the engine records the digest's words, and DOUT shows them. -/
theorem finalizeComputesTheStreamingDigest : Obligations.FinalizeComputesTheStreamingDigest := by
  intro d s hlen hacc hbits hbuf
  obtain ⟨w, hexec, hdigest⟩ := exec_finalize_of_holds hlen ⟨hacc, hbuf⟩ hbits
  have hdout : ∀ k, k < 4 → hostRead (0x70 + 4 * k) 4 (complete (recordDigest w s)) = .ok (doutView k w) := fun k hk =>
    (recorded_finalized w s).hostRead_dout (complete_busy _) hk
  exact ⟨_, doutView 3 w, doutView 2 w, doutView 1 w, doutView 0 w, hexec, hdout 3 (by decide), hdout 2 (by decide),
    hdout 1 (by decide), hdout 0 (by decide), by rw [doutViews_append, hdigest]⟩

/-! ## The digest sequence (R208) -/

/-- Reads of the four DOUT words after a FINALIZE: NAME is bound to the formatted digest (R88). -/
theorem runsTo_getdout {w : Quad Word} {name : HostName} {s : State} {rest : List HostOp}
    (hs : Ready (expandGetdout name ++ rest) s) (hw : Recorded w s) :
    RunsTo s rest fun t => SameRegisters s t ∧ getdoutValue name t.joined = some (formatDigest w) := by
  have hthree := runsTo_regReads
    [⟨.dout3, ['t', '3'], doutView 3 w⟩, ⟨.dout2, ['t', '2'], doutView 2 w⟩, ⟨.dout1, ['t', '1'], doutView 1 w⟩]
    (rest := .getdoutEnd name :: rest) hs (by simp [readReg, hw.readDout])
  refine hthree.andThen fun t ht ⟨hsame, _, hreads⟩ => ?_
  have hlast : hostRead 0x70 4 { t with program := rest, delay := t.delay - 1 } = .ok (doutView 0 w) :=
    (hw.of_sameRegisters (hsame.trans (sameRegisters_program_delay ..))).hostRead_dout ht.busy (k := 0) (by decide)
  have hbind := hostOp_getdoutEnd (name := name) (s := { t with program := rest, delay := t.delay - 1 })
    (v3 := doutView 3 w) (v2 := doutView 2 w) (v1 := doutView 1 w) (by simp [hreads, lookupRead, RegRead.reading])
    (by simp [hreads, lookupRead, RegRead.reading]) (by simp [hreads, lookupRead, RegRead.reading]) hlast
  rw [doutViews_append] at hbind
  exact ⟨_, Reaches.host ht.fault ht.busy ht.program hbind (Reaches.refl _), ⟨ht.fault, ht.busy, rfl⟩,
    hsame.trans ⟨⟨rfl, rfl, rfl, rfl, rfl⟩, rfl, rfl, rfl⟩, by simp [getdoutValue]⟩

/-- FINALIZE with its `wait`, on an engine that holds the Digest State and its bit length. -/
theorem runsTo_finalize {d : DigestState} {v : Word128} {s : State} {rest : List HostOp} (hlen : d.buffer.length ≤ 63)
    (hs : Ready (cmdWrite (encode (.finalize d.buffer.length)) :: .wait :: rest) s) (hd : Holds d s)
    (hbits : s.bitLen = bitLength d) (hv : digest d = .ok v) :
    RunsTo s rest fun t => Holds d t ∧ t.bitLen = bitLength d ∧ ∃ w, formatDigest w = v ∧ Recorded w t := by
  refine runsTo_command hlen hs fun u hu => ?_
  obtain ⟨w, hexec, hw⟩ := exec_finalize_of_holds hlen (hd.of_eq hu.acc hu.buf) (hu.bitLen.trans hbits)
  refine ⟨_, hexec, fun t ht => ⟨hd.of_eq (ht.acc.trans hu.acc) (ht.buf.trans hu.buf),
    (ht.bitLen.trans hu.bitLen).trans hbits, w, ?_, (recorded_finalized w u).of_sameRegisters ht⟩⟩
  rw [hv] at hw
  exact (Except.ok.inj hw).symm

theorem heldDigestProgram_eq (name : HostName) (d : DigestState) :
    heldDigestProgram name d =
      expandSetlen (bitLength d) ++ cmdWrite (encode (.finalize d.buffer.length)) :: .wait :: expandGetdout name := by
  simp [heldDigestProgram, heldDigestLines, expandLines, expandLine]

theorem digestProgram_eq (name : HostName) (d : DigestState) :
    digestProgram name d =
      expandLine (setaccLine d.acc) ++ (expandLdbuf 0x00 d.buffer ++ heldDigestProgram name d) := rfl

/-- Steps 3 to 5 of R208, on an engine that holds the Digest State. -/
theorem runsTo_heldDigest {name : HostName} {d : DigestState} {v : Word128} {s : State} {rest : List HostOp}
    (hlen : d.buffer.length ≤ 63) (hs : Ready (heldDigestProgram name d ++ rest) s) (hd : Holds d s)
    (hv : digest d = .ok v) :
    RunsTo s rest fun t => Holds d t ∧ t.bitLen = bitLength d ∧ getdoutValue name t.joined = some v := by
  rw [heldDigestProgram_eq, List.append_assoc] at hs
  refine (runsTo_setlen hs).andThen fun t ht ⟨hacc, hbuf, hbits⟩ => ?_
  refine (runsTo_finalize hlen ht (hd.of_eq hacc hbuf) hbits hv).andThen fun u hu ⟨hholds, hbits', w, hw, hrec⟩ => ?_
  obtain ⟨x, hux, hx, hsame, hbound⟩ := runsTo_getdout hu hrec
  exact ⟨x, hux, hx, hholds.of_eq hsame.acc hsame.buf, hsame.bitLen.trans hbits', hw ▸ hbound⟩

/-- Steps 1 and 2 of R208, and then the others. -/
theorem runsTo_digest {name : HostName} {d : DigestState} {v : Word128} {s : State} {rest : List HostOp}
    (hlen : d.buffer.length ≤ 63) (hs : Ready (digestProgram name d ++ rest) s) (hv : digest d = .ok v) :
    RunsTo s rest fun t => Holds d t ∧ t.bitLen = bitLength d ∧ getdoutValue name t.joined = some v := by
  rw [digestProgram_eq, List.append_assoc, List.append_assoc] at hs
  refine (runsTo_setacc hs).andThen fun t ht hacc => ?_
  refine (runsTo_ldbuf (by omega) ht).andThen fun u hu ⟨hacc', _, hbuf⟩ => ?_
  exact runsTo_heldDigest hlen hu ⟨hacc'.trans hacc, hbuf⟩ hv

/-- Settles O52: after its first two steps the whole sequence is the one on an engine that holds the Digest State. -/
theorem driverReadsTheDigest : Obligations.DriverReadsTheDigest := by
  intro name d s rest hlen hf hb hprogram
  obtain ⟨v, hv⟩ := digest_ok d
  obtain ⟨t, hst, ht, hholds, hbits, hname⟩ : RunsTo s rest fun t =>
      Holds d t ∧ t.bitLen = bitLength d ∧ getdoutValue name t.joined = some v := by
    obtain hp | ⟨hp, hacc, hbuf⟩ := hprogram
    · exact runsTo_digest hlen ⟨hf, hb, hp⟩ hv
    · exact runsTo_heldDigest hlen ⟨hf, hb, hp⟩ ⟨hacc, hbuf⟩ hv
  exact ⟨t, v, hst, hv, hname, ht.program, ht.busy, ht.fault, hholds.acc, hbits, hholds.buffer⟩

/-! ## The consume sequence (R207) -/

/-- Step 3 of R207 for one block. -/
def foldLines (b : List Byte) : List AsmLine := [.ldbuf 0x00 b, .compress, .wait]

theorem expandLines_append (ls ms : List AsmLine) : expandLines (ls ++ ms) = expandLines ls ++ expandLines ms :=
  List.flatMap_append

theorem expandLines_foldLines (b : List Byte) (ls : List AsmLine) :
    expandLines (foldLines b ++ ls) =
      expandLdbuf 0x00 b ++ cmdWrite (encode .compress) :: .wait :: expandLines ls := rfl

theorem consumeProgram_eq (form : ConsumeForm) (d : DigestState) (data : List Byte) :
    consumeProgram form d data =
      expandLines (if form.accHeld then [] else [setaccLine d.acc]) ++
      (expandLines ((fullBlocks ((d.buffer ++ data).length / 64) (d.buffer ++ data)).flatMap foldLines) ++
      (expandGetacc accName ++
       expandLines (if form.leaveTail then [.ldbuf 0x00 (remainder (d.buffer ++ data))] else []))) := by
  rw [consumeProgram, consumeLines, expandLines_append, expandLines_append, expandLines_append, List.append_assoc,
    List.append_assoc]
  rfl

/-- One block: loaded, compressed, waited for. -/
theorem runsTo_foldBlock {blk : Block} {s : State} {rest : List HostOp}
    (hs : Ready (expandLdbuf 0x00 blk.toList ++ cmdWrite (encode .compress) :: .wait :: rest) s) :
    RunsTo s rest fun t => t.acc = block s.acc blk := by
  refine (runsTo_ldbuf (by simp) hs).andThen fun t ht ⟨hacc, _, hbuf⟩ => ?_
  refine runsTo_command trivial ht fun u hu => ?_
  have hblock : blockOperand u = some blk := (blockOperand_eq_some_iff u blk).mpr fun j hj => by
    rw [hu.buf, hbuf j (by simpa using hj)]
    simp
  refine ⟨_, execCompress_of_block hblock, fun v hv => ?_⟩
  rw [hv.acc, complete_acc, hu.acc, hacc]

/-- The full blocks in order: the engine folds what the drain of R202 folds. -/
theorem runsTo_foldBlocks {n : Nat} {buf : List Byte} (h : 64 * n ≤ buf.length) {s : State} {rest : List HostOp}
    (hs : Ready (expandLines ((fullBlocks n buf).flatMap foldLines) ++ rest) s) :
    RunsTo s rest fun t => t.acc = (drain n s.acc buf).1 := by
  induction n generalizing buf s with
  | zero => exact RunsTo.here hs rfl
  | succ n ih =>
    obtain ⟨blk, hblk⟩ := exists_firstBlock h
    rw [fullBlocks, List.flatMap_cons, ← (blockOfList?_eq_some_iff _ _).mp hblk, expandLines_foldLines,
      List.append_assoc] at hs
    refine (runsTo_foldBlock hs).andThen fun t ht hacc => ?_
    rw [drain_of_block hblk, ← hacc]
    exact ih (le_length_drop_block h) ht

theorem runsTo_getacc {s : State} {rest : List HostOp} (hs : Ready (expandGetacc accName ++ rest) s) :
    RunsTo s rest fun t => t.acc = s.acc ∧ getaccValue accName t.reads = some s.acc := by
  obtain ⟨t, hst, ht, hsame, -, hreads⟩ := runsTo_regReads
    [⟨.accA, accName ++ ['.', 'a'], s.acc.a⟩, ⟨.accB, accName ++ ['.', 'b'], s.acc.b⟩,
     ⟨.accC, accName ++ ['.', 'c'], s.acc.c⟩, ⟨.accD, accName ++ ['.', 'd'], s.acc.d⟩] hs (by simp [readReg])
  exact ⟨t, hst, ht, hsame.acc, by simp [hreads, getaccValue, lookupRead, RegRead.reading, accName]⟩

/-- Step 1 of R207, or the accumulator held already. -/
theorem runsTo_accHeld {held : Bool} {acc : Quad Word} {s : State} {rest : List HostOp}
    (hs : Ready (expandLines (if held then [] else [setaccLine acc]) ++ rest) s) (hacc : held = true → s.acc = acc) :
    RunsTo s rest fun t => t.acc = acc := by
  cases held with
  | true => exact RunsTo.here hs (hacc rfl)
  | false => exact runsTo_setacc hs

/-- The remaining bytes left in BUF, where the host chooses so. -/
theorem runsTo_leaveTail {leave : Bool} {tail : List Byte} {s : State} {rest : List HostOp} (hlen : tail.length ≤ 64)
    (hs : Ready (expandLines (if leave then [.ldbuf 0x00 tail] else []) ++ rest) s) :
    RunsTo s rest fun t => t.acc = s.acc ∧ t.reads = s.reads ∧
      (leave = true → ∀ (j : Nat) (h : j < tail.length), t.buf.read j = some tail[j]) := by
  cases leave with
  | false => exact RunsTo.here hs ⟨rfl, rfl, nofun⟩
  | true =>
    have hline : expandLines [.ldbuf 0x00 tail] = expandLdbuf 0x00 tail := List.append_nil _
    rw [if_pos rfl, hline] at hs
    obtain ⟨t, hst, ht, hacc, hreads, hbuf⟩ := runsTo_ldbuf hlen hs
    exact ⟨t, hst, ht, hacc, hreads, fun _ => hbuf⟩

/-- Settles O53, piece by piece of the sequence. -/
theorem driverReadsTheConsumedAccumulator : Obligations.DriverReadsTheConsumedAccumulator := by
  intro form d data s rest hf hb hp hheld
  have hs : Ready (consumeProgram form d data ++ rest) s := ⟨hf, hb, hp⟩
  rw [consumeProgram_eq, ← consume_buffer, List.append_assoc, List.append_assoc, List.append_assoc] at hs
  have hshort : (consume d data).buffer.length ≤ 64 := by
    rw [consume_buffer, remainder_length]
    omega
  obtain ⟨t, hst, ht, hacc, hread, htail⟩ : RunsTo s rest fun t =>
      t.acc = (consume d data).acc ∧ getaccValue accName t.reads = some (consume d data).acc ∧
      (form.leaveTail = true → ∀ (j : Nat) (h : j < (consume d data).buffer.length),
        t.buf.read j = some (consume d data).buffer[j]) := by
    refine (runsTo_accHeld hs hheld).andThen fun t ht hstart => ?_
    refine (runsTo_foldBlocks (by omega) ht).andThen fun u hu hfolded => ?_
    rw [hstart, ← consume_acc] at hfolded
    refine (runsTo_getacc hu).andThen fun v hv ⟨hsame, hread⟩ => ?_
    obtain ⟨x, hvx, hx, hacc, hreads, htail⟩ := runsTo_leaveTail hshort hv
    exact ⟨x, hvx, hx, by rw [hacc, hsame, hfolded], by rw [hreads, hread, hfolded], htail⟩
  exact ⟨t, (consume d data).acc, hst, hread, consumedState_eq_consume d data, hacc, ht.program, ht.busy, ht.fault, htail⟩

end Sys2Proof.Machine
end

section
/-!
PROOF. The statement of 60_exceptions.md: a recorded fault stays (O26).
-/
namespace Sys2Proof.Machine

theorem stepState_of_step_fault {s : State} {f : Fault} (h : step s = .fault f) :
    stepState s = { s with fault := some f } := by simp [stepState, h, recordOutcome]

/-- No step is enabled after a fault, and recording the same fault again changes nothing (R225). -/
theorem stepState_faulted {s : State} {f : Fault} (h : s.fault = some f) : stepState s = s := by
  have hrecord : stepState s = { s with fault := some f } := stepState_of_step_fault (step_faulted h)
  rw [← h] at hrecord
  exact hrecord

theorem not_final_of_faulted {s : State} {f : Fault} (h : s.fault = some f) : ¬ s.Final := by
  rintro ⟨-, -, hnone⟩
  cases h.symm.trans hnone

/-- Settles O26: a faulted state is a fixed point of the recorded step, so of any number of them. -/
theorem faultsAreNeverCleared : Obligations.FaultsAreNeverCleared := by
  refine ⟨fun k s f h => ⟨step_faulted h, ?_, not_final_of_faulted h⟩, fun _ _ => stepState_of_step_fault,
    hostReset_fault⟩
  exact Function.iterate_fixed (stepState_faulted h) k

end Sys2Proof.Machine
end

section
/-!
PROOF. The statements of 70_reset_and_hazards.md: reset (O33, O45, O46), and the host's wait for the engine's turn (O27).
-/
namespace Sys2Proof.Machine

/-! ## Waiting for the engine's turn (R246, R247) -/

/-- The reading of STATUS that a round of `wait` keeps (R88). -/
def statusReading (s : State) : Reading := ⟨statusName, 4, statusWord s⟩

theorem statusReading_afterReads (s : State) (reads : List Reading) (delay : Nat) :
    statusReading { s with reads := reads, delay := delay } = statusReading s := rfl

theorem Waiting.afterReads {w : Word} {rest : List HostOp} {s : State} (h : Waiting w rest s) (reads : List Reading)
    (delay : Nat) : Waiting w rest { s with reads := reads, delay := delay } :=
  ⟨h.fault, h.busy, h.program, h.cmdLatch⟩

/-- A round of `wait` before the engine's turn is one reading of STATUS, and leaves one host step less to come. -/
theorem Waiting.step_round {w : Word} {rest : List HostOp} {s : State} (h : Waiting w rest s) (hd : s.delay ≠ 0) :
    step s = .next { s with reads := s.reads ++ [statusReading s], delay := s.delay - 1 } := by
  have hturn : nextTurn s = .host := (nextTurn_host_iff s).mpr ⟨by simp [h.program], fun _ => hd⟩
  have hround := (step_host h.fault hturn h.program).trans (hostOpWait_busy h.busy)
  rw [hround, ← h.program]
  rfl

/-- As many rounds as the delay has left: as many equal readings of STATUS, since nothing that STATUS shows changes. -/
theorem Waiting.runFor_delay {w : Word} {rest : List HostOp} {s : State} (h : Waiting w rest s) :
    runFor s.delay s =
      .next { s with reads := s.reads ++ List.replicate s.delay (statusReading s), delay := 0 } := by
  induction hdelay : s.delay generalizing s with
  | zero => rw [runFor_zero, List.replicate_zero, List.append_nil, ← hdelay]
  | succ k ih =>
    have hround := h.step_round (by omega)
    rw [hdelay, Nat.add_sub_cancel] at hround
    refine (runFor_succ k hround).trans ((ih (h.afterReads _ k) rfl).trans ?_)
    simp [statusReading_afterReads, List.replicate_succ]

/-- Settles O27: the delay is used up by the host's rounds of `wait`, which only read STATUS. -/
theorem engineTurnComesWhileTheHostWaits : Obligations.EngineTurnComesWhileTheHostWaits := by
  intro s rest hf hb hp
  have hwaiting : Waiting s.cmdLatch rest s := ⟨hf, hb, hp, rfl⟩
  exact ⟨_, hwaiting.runFor_delay, (nextTurn_engine_iff _).mpr ⟨hb, .inl rfl⟩, rfl⟩

/-! ## Reset (R240 to R242) -/

/-- Power-on is a state that a reset leaves as it is (R242). -/
theorem hostReset_reset : hostReset State.reset = State.reset := rfl

/-- Settles O33: a reset establishes the invariant, and power-on is the state after a reset. -/
theorem invariantHoldsAtReset : Obligations.InvariantHoldsAtReset :=
  show State.reset.Inv from hostReset_reset ▸ hostReset_inv State.reset

theorem statusWord_hostReset (s : State) : statusWord (hostReset s) = 0x00000000#32 := by simp [statusWord]

/-- Settles O45, register by register; with DV = 0 no DOUT register holds a value. -/
theorem resetSetsEveryRegister : Obligations.ResetSetsEveryRegister := by
  intro s
  refine ⟨hostReset s, rfl, hostReset_acc s, fun a => ?_, hostReset_bitLen s, hostReset_busy s, hostReset_err s,
    hostReset_dv s, hostReset_errCode s, hostReset_digest s, hostReset_fault s, ?_, fun k hk => ?_⟩
  · rw [hostReset_buf, Memory.read_nil]
  · rw [hostRead_status, statusWord_hostReset]
  · rw [hostRead_dout (hostReset_busy s) hk, readDout_of_not_dv k (hostReset_dv s)]

/-- Settles O46: the delay says whose turn is next, and a reset leaves nothing of it. -/
theorem resetDuringACommand : Obligations.ResetDuringACommand := by
  intro s rest hf hb hp
  refine ⟨fun hd => ?_, fun hd => ?_⟩
  · have hturn : nextTurn s = .host := (nextTurn_host_iff s).mpr ⟨by simp [hp], fun _ => hd⟩
    exact step_host hf hturn hp
  · exact step_engine hf ((nextTurn_engine_iff s).mpr ⟨hb, .inl hd⟩)

end Sys2Proof.Machine
end
